-- ==== Sys2Proof/Word.lean ====
section
/-! DEFINITION. The words of the machine: a byte, the container of an XLEN-bit value, and XLEN itself.

XLEN is OPEN (00_scope.md R7, decision D8): 32 or 64, held in the configuration. Every XLEN-bit value stands in the
low XLEN bits of a 64-bit container whose other bits are zero; `XLen.trunc` is reduction modulo 2^XLEN. -/

namespace Sys2Proof

/-- One byte of memory: 8 bits (20_memory.md R41). -/
abbrev Byte := BitVec 8

/-- The container of one XLEN-bit value. -/
abbrev Word := BitVec 64

/-- The two values of the parameter `XLEN` (00_scope.md R7). -/
inductive XLen where
  | rv32
  | rv64
  deriving DecidableEq, Repr

/-- How many bits an XLEN-bit value has. -/
def XLen.bits : XLen → Nat
  | .rv32 => 32
  | .rv64 => 64

/-- A value modulo 2^XLEN (10_state.md R34: `pc + 4` is taken modulo 2^XLEN). -/
def XLen.trunc : XLen → Word → Word
  | .rv32, w => (w.setWidth 32).setWidth 64
  | .rv64, w => w

end Sys2Proof
end

