-- ==== Sys2Proof/Syntax.lean ====
section
/-! DEFINITION. The four instructions (00_scope.md R3), one constructor per row of spec/opcode_table.json, and the
assembler's written form of one (30_encoding.md R65). -/

namespace Sys2Proof

/-- The number of a general register: `x[0..31]` (10_state.md R33). -/
abbrev Reg := Fin 32

/-- Which of the four instructions: the argument `insn` of `OtherFault(insn, eff_mode, ea)` (40_cbo_management.md R79). -/
inductive CmoOp where
  | inval
  | clean
  | flush
  | zero
  deriving DecidableEq, Repr

/-- A decoded instruction. Its one operand is the base register `rs1`; there is no immediate (30_encoding.md R62). -/
inductive Instr where
  /-- `CBO.INVAL` (40_cbo_management.md R75). -/
  | cboInval (rs1 : Reg)
  /-- `CBO.CLEAN` (40_cbo_management.md R76). -/
  | cboClean (rs1 : Reg)
  /-- `CBO.FLUSH` (40_cbo_management.md R77). -/
  | cboFlush (rs1 : Reg)
  /-- `CBO.ZERO` (41_cbo_write.md R85). -/
  | cboZero (rs1 : Reg)
  deriving DecidableEq, Repr

/-- Which instruction it is. -/
def Instr.op : Instr → CmoOp
  | .cboInval _ => .inval
  | .cboClean _ => .clean
  | .cboFlush _ => .flush
  | .cboZero _ => .zero

/-- Its base register. -/
def Instr.rs1 : Instr → Reg
  | .cboInval r => r
  | .cboClean r => r
  | .cboFlush r => r
  | .cboZero r => r

/-- The instruction of a given kind and base register. -/
def CmoOp.instr : CmoOp → Reg → Instr
  | .inval, r => .cboInval r
  | .clean, r => .cboClean r
  | .flush, r => .cboFlush r
  | .zero, r => .cboZero r

/-- A line of assembly, `cbo.inval (rs1)` or `cbo.inval 0(rs1)` (30_encoding.md R65, D23): raw, as written. -/
structure AsmLine where
  op     : CmoOp
  /-- The optional offset in front of the parenthesis. -/
  offset : Option Int
  /-- The register number in the parentheses. -/
  base   : Nat
  deriving DecidableEq, Repr

end Sys2Proof
end

