-- ==== Sys2Proof/Config.lean ====
section
/-! DEFINITION. What an implementation fixes: the parameters of 00_scope.md R7, and the free values.

Every parameter the spec leaves OPEN is a field of `Config`, and the machine's State holds one `Config` that no step
writes: a statement about every state is a statement about every choice of the parameters. Three
parameters are functions and so are no data: `Legal_c` (a `LegalRule` names the default family, or the opaque
`Config.freeLegal`), `ENC` (an `EncRule` names the default, a table of rows, or the opaque `Config.freeEnc`) and
`CsrAccessOK` (a predicate over four registers and five modes, written as the list of the pairs it allows). -/

namespace Sys2Proof

/-- The four control and status registers of the extension (10_state.md R13). -/
inductive Csr where
  | mcmocontrol
  | scmocontrol
  | hcmocontrol
  | vscmocontrol
  deriving DecidableEq, Repr

/-- All four, for checks that range over them. -/
def Csr.all : List Csr := [.mcmocontrol, .scmocontrol, .hcmocontrol, .vscmocontrol]

/-- The five privilege modes (60_exceptions.md R99). `S` is the source's S/HS-mode (90_conflicts.md C1). -/
inductive Mode where
  | M
  | S
  | U
  | VS
  | VU
  deriving DecidableEq, Repr

/-- One value for each of the four registers. -/
structure PerCsr (α : Type) where
  mcmocontrol : α
  scmocontrol : α
  hcmocontrol : α
  vscmocontrol : α
  deriving DecidableEq, Repr

/-- The value that belongs to a register. -/
def PerCsr.get {α : Type} (p : PerCsr α) : Csr → α
  | .mcmocontrol => p.mcmocontrol
  | .scmocontrol => p.scmocontrol
  | .hcmocontrol => p.hcmocontrol
  | .vscmocontrol => p.vscmocontrol

/-- The same values but for one register's. -/
def PerCsr.set {α : Type} (p : PerCsr α) (c : Csr) (v : α) : PerCsr α :=
  match c with
  | .mcmocontrol => { p with mcmocontrol := v }
  | .scmocontrol => { p with scmocontrol := v }
  | .hcmocontrol => { p with hcmocontrol := v }
  | .vscmocontrol => { p with vscmocontrol := v }

/-- The parameter `INVAL_FAULT_KIND`: which variant of the three faults is raised (60_exceptions.md R89, D13). -/
inductive FaultVariant where
  | load
  | store
  deriving DecidableEq, Repr

/-- The order of the four bytes of an instruction word at its fetch address. OPEN (20_memory.md R55, D20). -/
inductive ByteOrder where
  | little
  | big
  deriving DecidableEq, Repr

/-- The parameter `CacheModel` (00_scope.md R7, D18). `reference` is the model of 20_memory.md R50 to R54, whole-block
write back. `subBlock` adds to it the write back of PARTS of a modified block, which gives the per-byte draws of the
safe alternative at the end of 20_memory.md section 3 ("Hardware that writes back parts of a block"). -/
inductive CacheModel where
  | reference
  | subBlock
  deriving DecidableEq, Repr

/-- The parameter `Legal_c` (10_state.md R23, D6). `mask m` holds `new AND m` (the default is `m = 0xF03`; a hardwired
field is a smaller mask, as in 95_test_vectors.md L6 and L7). `implementation` is any other function of the two
arguments: the free value `Config.freeLegal`. -/
inductive LegalRule where
  | mask (supported : Word)
  | implementation
  deriving DecidableEq, Repr

/-- One row of an encoding of the instructions: a word `w` is the instruction `op` when `w AND mask = pattern`, and its base
register is the five bits from `rs1Low` on (the form of 30_encoding.md R61). -/
structure EncRow where
  op      : CmoOp
  mask    : BitVec 32
  pattern : BitVec 32
  rs1Low  : Nat
  deriving DecidableEq, Repr

/-- The parameter `ENC` (30_encoding.md R59, D11): a partial function from a 32-bit word to an instruction. `default` is the
encoding of R60 and R61, `table` any other that is given by rows, `implementation` any function at all: the free value
`Config.freeEnc`. -/
inductive EncRule where
  | default
  | table (rows : List EncRow)
  | implementation
  deriving DecidableEq, Repr

/-- The implementation parameters (00_scope.md R7), and three choices the same files leave to the model: `csrAccess`
and `vsRedirect` (10_state.md R29, R40), `fetchOrder` (20_memory.md R55). -/
structure Config where
  /-- `CMO_IMPLEMENTED`: the extension is present at all (D1). -/
  cmoImplemented : Bool
  /-- `XLEN` (D8). -/
  xlen : XLen
  /-- `HAVE_S`: S-mode is implemented (D2). -/
  haveS : Bool
  /-- `HAVE_U`: U-mode is implemented (D2). -/
  haveU : Bool
  /-- `HAVE_H`: "the H-extension is implemented and enabled" (D2, D24: static). -/
  haveH : Bool
  /-- `ADDR_*`: the CSR numbers, where any is assigned (10_state.md R28, D4: OPEN, no default). -/
  addr : PerCsr (Option (BitVec 12))
  /-- `Legal_c` (D6). -/
  legal : PerCsr LegalRule
  /-- `RESET_c` (10_state.md R37, D7: OPEN, any legal value). -/
  resetValue : PerCsr Word
  /-- `CBSIZE` is `2 ^ cbLog` bytes, a power of two (20_memory.md R43, D9). -/
  cbLog : Nat
  /-- `ENC` (D11). -/
  enc : EncRule
  /-- `INVAL_FAULT_KIND` (D13). -/
  invalFaultKind : FaultVariant
  /-- `M_PROT_ENABLED`: the PMP and PMAs count as an enabled protection mechanism (D16). -/
  mProtEnabled : Bool
  /-- `CsrAccessOK(c, cur_mode)`: the pairs it allows (10_state.md R29, D5). -/
  csrAccess : List (Csr × Mode)
  /-- VS-mode's access to the number of `scmocontrol` reaches `vscmocontrol` (10_state.md R40, D5: OPEN). -/
  vsRedirect : Bool
  /-- Byte order of instruction words in memory (D20: OPEN). -/
  fetchOrder : ByteOrder
  /-- `CacheModel` (D18). -/
  cacheModel : CacheModel
  deriving DecidableEq, Repr

/-- FREE VALUE. `Legal_c(old, new)` of an implementation that is not a mask (10_state.md R23, 93_implementation_defined.md
I1): nothing is known of it; `Machine.legalise` clears the reserved bits of what it gives (assumption 12). -/
opaque Config.freeLegal : Csr → Word → Word → Word

/-- FREE VALUE. `ENC` of an implementation whose encoding is not known (30_encoding.md R59, 93_implementation_defined.md I16):
the instruction a word is, if it is one (assumption 8). -/
opaque Config.freeEnc : BitVec 32 → Option Instr

/-- FREE VALUE. The draw of `Combine` (40_cbo_management.md R79, D27): true reports the other fault, false the CMO-control
fault, when the two differ in kind. One draw a step (assumption 11). -/
opaque Config.combineDraw : Nat → Bool

/-- FREE VALUE. Whether an instruction fetch sees the bytes of a cached copy or those of memory, where the two differ
(20_memory.md R57 (b): what the instruction fetch unit sees, and when, is not specified). One draw a step
(assumption 10). -/
opaque Config.fetchSeesCache : Nat → Bool

/-- The bits of the six defined fields, `0xF03` (10_state.md R15). -/
def definedBits : Word := 0xF03#64

/-- The access rule the RISC-V naming convention suggests (10_state.md R29, D5): the default of `CsrAccessOK`. -/
def Config.defaultAccess : List (Csr × Mode) :=
  [(.mcmocontrol, .M), (.scmocontrol, .S), (.scmocontrol, .M), (.hcmocontrol, .S), (.hcmocontrol, .M),
   (.vscmocontrol, .S), (.vscmocontrol, .M)]

/-- The configuration of `State.reset`: the spec's defaults where it gives one, and the settings of the spec's own
programs (95_test_vectors.md section 3: XLEN = 64, CBSIZE = 64) where it leaves a parameter OPEN.
DESIGN CHOICE (assumption 1): unsafe for a claim about the run from `State.reset`; a claim about every state ranges over
every configuration. -/
def Config.atReset : Config where
  cmoImplemented := true
  xlen := .rv64
  haveS := true
  haveU := true
  haveH := true
  addr := ⟨none, none, none, none⟩
  legal := ⟨.mask definedBits, .mask definedBits, .mask definedBits, .mask definedBits⟩
  resetValue := ⟨0, 0, 0, 0⟩
  cbLog := 6
  enc := .default
  invalFaultKind := .store
  mProtEnabled := true
  csrAccess := Config.defaultAccess
  vsRedirect := false
  fetchOrder := .little
  cacheModel := .reference

end Sys2Proof
end

