-- ==== Sys2Proof/WellFormed.lean ====
section
/-! DEFINITION. The checks on what is written down by hand: an assembly line and a configuration.

A decoded `Instr` needs no check: its base register is a `Fin 32`, so every term of the type is a legal encoding
(30_encoding.md R62: `rs1 = 0` is legal too). -/

namespace Sys2Proof

/-- The offset of a written instruction, where there is one, must be zero (30_encoding.md R65). -/
def AsmLine.offsetOk (a : AsmLine) : Bool := a.offset == none || a.offset == some 0

/-- The written register is one of `x[0..31]` (10_state.md R33). -/
def AsmLine.baseOk (a : AsmLine) : Bool := decide (a.base < 32)

/-- A well-formed assembly line. -/
def AsmLine.wf (a : AsmLine) : Bool := a.offsetOk && a.baseOk

/-- Each `RESET_c` is a legal value: zero in every reserved bit (10_state.md R37, R23 (a)). -/
def Config.resetOk (c : Config) : Bool :=
  Csr.all.all fun r => c.resetValue.get r &&& ~~~definedBits == 0

/-- The CSR numbers that are assigned differ from each other: a number names one register. -/
def Config.addrOk (c : Config) : Bool :=
  decide ((Csr.all.filterMap fun r => c.addr.get r).Nodup)

/-- A cache block is no larger than the XLEN-bit address space (DEDUCED from 20_memory.md R43: every byte address lies in
exactly one block of CBSIZE byte addresses; assumption 17). -/
def Config.blockOk (c : Config) : Bool := decide (c.cbLog ≤ c.xlen.bits)

/-- No word belongs to two rows: some bit that both masks look at differs between the two patterns. -/
def EncRow.apart (r q : EncRow) : Bool := (r.pattern ^^^ q.pattern) &&& r.mask &&& q.mask != 0

/-- Every row's pattern has bits only where its mask looks, its register field lies inside the word, and no word belongs to
two rows: `ENC` is a function (30_encoding.md R59, R66). -/
def Config.encOk (c : Config) : Bool :=
  match c.enc with
  | .default => true
  | .table rows =>
    rows.all (fun r => r.pattern &&& ~~~r.mask == 0 && decide (r.rs1Low + 5 ≤ 32)) &&
      decide (rows.Pairwise fun r q => r.apart q = true)
  | .implementation => true

/-- A well-formed configuration. -/
def Config.wf (c : Config) : Bool := c.resetOk && c.addrOk && c.blockOk && c.encOk

end Sys2Proof
end

