-- ==== Sys2Proof/Decode.lean ====
section
/-! DEFINITION. The decoder of the four instructions: the default of the parameter `ENC` (30_encoding.md R60 to R66), total
on every word and every byte sequence; `ENC` as the configuration sets it (R59); and after them the encoder and the assembler
of the default.

The default decoder reads the FIELDS of R60; the match and mask numbers of R61 appear nowhere in it (that the two agree is an
obligation). -/

namespace Sys2Proof

/-- Why a word is no instruction of this spec (30_encoding.md R63, R66: "not a CMO instruction"). -/
inductive DecodeReject where
  /-- Fewer than the four bytes of an instruction. -/
  | truncated
  /-- The major opcode is not `MISC-MEM`. -/
  | otherOpcode
  /-- `funct3` is not `010`. -/
  | otherFunct3
  /-- `rd` is not `00000`. -/
  | rdNotZero
  /-- `imm12` selects none of the four operations. -/
  | otherImm12
  /-- Another encoding than the default maps the word to none of the four instructions. -/
  | notInEnc
  deriving DecidableEq, Repr

/-! ## Fields (30_encoding.md R60) -/

def fieldImm12 (w : BitVec 32) : BitVec 12 := w.extractLsb' 20 12
def fieldRs1 (w : BitVec 32) : BitVec 5 := w.extractLsb' 15 5
def fieldFunct3 (w : BitVec 32) : BitVec 3 := w.extractLsb' 12 3
def fieldRd (w : BitVec 32) : BitVec 5 := w.extractLsb' 7 5
def fieldOpcode (w : BitVec 32) : BitVec 7 := w.extractLsb' 0 7

/-- The major opcode `MISC-MEM`. -/
def opcodeMiscMem : BitVec 7 := 0b0001111#7

/-- The `funct3` value named `CBO`. -/
def funct3Cbo : BitVec 3 := 0b010#3

/-- Which operation an `imm12` selects (30_encoding.md R61). -/
def opOfImm12 (imm : BitVec 12) : Option CmoOp :=
  if imm = 0#12 then some .inval
  else if imm = 1#12 then some .clean
  else if imm = 2#12 then some .flush
  else if imm = 4#12 then some .zero
  else none

/-- A 5-bit register field as a register number. -/
def regOfBits (b : BitVec 5) : Reg := b.toFin

/-- The default `ENC`: the instruction a 32-bit word is, or why it is none. -/
def decodeWord (w : BitVec 32) : Except DecodeReject Instr :=
  if fieldOpcode w = opcodeMiscMem then
    if fieldFunct3 w = funct3Cbo then
      if fieldRd w = 0#5 then
        match opOfImm12 (fieldImm12 w) with
        | some op => .ok (op.instr (regOfBits (fieldRs1 w)))
        | none => .error .otherImm12
      else .error .rdNotZero
    else .error .otherFunct3
  else .error .otherOpcode

/-! ## `ENC` as a parameter (30_encoding.md R59) -/

/-- The instruction a row reads from a word. -/
def EncRow.read (r : EncRow) (w : BitVec 32) : Option Instr :=
  if w &&& r.mask = r.pattern then some (r.op.instr (regOfBits (w.extractLsb' r.rs1Low 5))) else none

/-- `ENC`: the instruction a 32-bit word is under the configuration's encoding, or why it is none. -/
def decodeEnc (e : EncRule) (w : BitVec 32) : Except DecodeReject Instr :=
  match e with
  | .default => decodeWord w
  | .table rows =>
    match rows.findSome? fun r => r.read w with
    | some i => .ok i
    | none => .error .notInEnc
  | .implementation =>
    match Config.freeEnc w with
    | some i => .ok i
    | none => .error .notInEnc

/-! ## Byte order (20_memory.md R55: OPEN) -/

/-- The word that four bytes make, the first at the lowest address. -/
def wordOfBytes (o : ByteOrder) (b0 b1 b2 b3 : Byte) : BitVec 32 :=
  match o with
  | .little => b3 ++ b2 ++ b1 ++ b0
  | .big => b0 ++ b1 ++ b2 ++ b3

/-- The four bytes of a word, the one at the lowest address first. -/
def bytesOfWord (o : ByteOrder) (w : BitVec 32) : List Byte :=
  let lo := [w.extractLsb' 0 8, w.extractLsb' 8 8, w.extractLsb' 16 8, w.extractLsb' 24 8]
  match o with
  | .little => lo
  | .big => lo.reverse

/-- The instruction at the front of a byte sequence, under the default `ENC`, and what is left after it. Every instruction is 32 bits long
(30_encoding.md R64). -/
def decodeBytes (o : ByteOrder) : List Byte → Except DecodeReject (Instr × List Byte)
  | b0 :: b1 :: b2 :: b3 :: rest =>
    match decodeWord (wordOfBytes o b0 b1 b2 b3) with
    | .ok i => .ok (i, rest)
    | .error e => .error e
  | _ => .error .truncated

/-- The host's view of the decoder: `nbits` bits of `w`, laid out as memory holds them. -/
def decodeTableWord (nbits w : Nat) : Option Instr :=
  match decodeBytes .little (bytesOfWord .little (BitVec.ofNat 32 (w % 2 ^ nbits))) with
  | .ok (i, _) => some i
  | .error _ => none

/-! ## Encoder and assembler -/

/-- The `imm12` of each operation (30_encoding.md R61). -/
def imm12Of : CmoOp → BitVec 12
  | .inval => 0#12
  | .clean => 1#12
  | .flush => 2#12
  | .zero => 4#12

/-- The word of an instruction: `imm12 ++ rs1 ++ 010 ++ 00000 ++ 0001111` (30_encoding.md R60). -/
def encode (i : Instr) : BitVec 32 :=
  imm12Of i.op ++ BitVec.ofFin (w := 5) i.rs1 ++ funct3Cbo ++ 0#5 ++ opcodeMiscMem

/-- The bytes of an instruction in memory. -/
def encodeBytes (o : ByteOrder) (i : Instr) : List Byte := bytesOfWord o (encode i)

/-- The instruction a written line stands for, where the line is well formed (30_encoding.md R65). -/
def assemble (a : AsmLine) : Option Instr :=
  if a.wf then
    if h : a.base < 32 then some (a.op.instr ⟨a.base, h⟩) else none
  else none

end Sys2Proof
end

