-- ==== Sys2Proof/Machine/Presence.lean ====
section
/-! DEFINITION. Which of the four CSRs and which of the five modes a configuration has. -/

namespace Sys2Proof.Machine

/-- Whether a CSR exists (10_state.md R14, D2): `mcmocontrol` with the extension, `scmocontrol` with S-mode, the other two with
the H-extension. -/
def Csr.present (c : Config) : Csr → Bool
  | .mcmocontrol => c.cmoImplemented
  | .scmocontrol => c.cmoImplemented && c.haveS
  | .hcmocontrol => c.cmoImplemented && c.haveH
  | .vscmocontrol => c.cmoImplemented && c.haveH

/-- Whether a mode exists (60_exceptions.md R99). M-mode always does. -/
def Mode.present (c : Config) : Mode → Bool
  | .M => true
  | .S => c.haveS
  | .U => c.haveU
  | .VS => c.haveH
  | .VU => c.haveH

end Sys2Proof.Machine
end

