-- ==== Sys2Proof/Machine/State.lean ====
section
/-! DEFINITION. The state of the machine, the reasons a step stops, and the state after reset.

State holds the tuple of 10_state.md R25 (the four CSRs, `x[0..31]`, `pc`, memory, cache), the inputs that the enclosing
model supplies (00_scope.md R9), the outcome `Trap(kind, info)` that a step hands to the enclosing model (R11), what the
enclosing model and the cache do between steps (R51; 10_state.md R39), and the configuration (R7). -/

namespace Sys2Proof.Machine

/-! ## Exceptions (60_exceptions.md R88) -/

/-- The three faults an access takes. -/
inductive MemFault where
  | pageFault
  | guestPageFault
  | accessFault
  deriving DecidableEq, Repr

/-- The four kinds of exception. -/
inductive ExcKind where
  | illegalInstruction
  | fault (f : MemFault)
  deriving DecidableEq, Repr

/-- The outcome `Trap(kind, info)` (00_scope.md R11, 90_conflicts.md C6): `info` is `ea` for the three faults and empty for an
illegal instruction. -/
structure Trap where
  kind : ExcKind
  info : Option Word
  deriving DecidableEq, Repr

/-! ## Memory and cache (20_memory.md R50) -/

/-- Memory: the bytes that differ from `unlistedByte`, by physical address, addresses strictly rising. -/
abbrev Memory := List Host.Cell

/-- What an address that memory does not list reads as. DESIGN CHOICE (assumption 4), unsafe: the spec leaves the contents
of memory at launch open (10_state.md R38). -/
def unlistedByte : Byte := 0#8

/-- A cached copy, `Present(data, modified)`. -/
structure Line where
  data     : List Byte
  modified : Bool
  deriving DecidableEq, Repr

/-- The cache: the blocks that are `Present`, by block base, bases strictly rising. A base not listed is `Absent`. -/
abbrev Cache := List (Nat × Line)

/-! ## Inputs (00_scope.md R9) -/

/-- Whether write permission was granted: `W0` or `W1`. -/
inductive Wx where
  | W0
  | W1
  deriving DecidableEq, Repr

/-- A stretch of addresses and where translation puts it. -/
structure XlatRegion where
  vbase : Nat
  pbase : Nat
  size  : Nat
  deriving DecidableEq, Repr

/-- One row of the function `OtherFault(insn, eff_mode, ea)` (40_cbo_management.md R79): the fault that this instruction takes in
this effective mode on the addresses `base` to `base + size - 1`. -/
structure OtherFaultRow where
  op    : CmoOp
  mode  : Mode
  base  : Nat
  size  : Nat
  fault : MemFault
  deriving DecidableEq, Repr

/-- What the enclosing model supplies. -/
structure Inputs where
  /-- `cur_mode`. -/
  curMode : Mode
  /-- `eff_mode`. -/
  effMode : Mode
  /-- `satp.MODE==Bare`. -/
  satpBare : Bool
  /-- `hgatp.MODE==Bare`. -/
  hgatpBare : Bool
  /-- `vsatp.MODE==Bare`. -/
  vsatpBare : Bool
  /-- `W_m`, `W_s`, `W_h`, `W_vs`. -/
  granted : PerCsr Wx
  /-- Translation of a CMO instruction's address in the effective privilege mode (20_memory.md R41); identity elsewhere. -/
  dataXlat : List XlatRegion
  /-- Translation of the program counter at a fetch; identity elsewhere. -/
  fetchXlat : List XlatRegion
  /-- `OtherFault`, the first row that matches; `none` elsewhere. -/
  otherFaults : List OtherFaultRow
  deriving DecidableEq, Repr

/-! ## What happens between two steps -/

/-- How an access of the enclosing ISA names a CSR (10_state.md R28, R39). -/
inductive CsrRef where
  | named (c : Csr)
  | number (n : BitVec 12)
  deriving DecidableEq, Repr

/-- One thing that happens between two steps of the hart: a spontaneous transition of the cache (20_memory.md R51) or an act of
the enclosing model, which this spec receives and does not define (00_scope.md R8, R9; 10_state.md R39; 20_memory.md R42). -/
inductive Event where
  /-- The cache fills the block of `a`. -/
  | fill (a : Nat)
  /-- The cache writes the block of `a` back. -/
  | writeBack (a : Nat)
  /-- The cache evicts the block of `a`. -/
  | evict (a : Nat)
  /-- The cache writes back only some bytes of the block of `a` (under `CacheModel.subBlock`). -/
  | writeBackPart (a : Nat) (offsets : List Nat)
  /-- A store of the enclosing ISA, `MemWrite` (R52). -/
  | store (pa : Nat) (bytes : List Byte)
  /-- A CSR write of the enclosing ISA, `CsrWrite` under `CsrAccessOK`. -/
  | csrWrite (r : CsrRef) (v : Word)
  /-- A CSR read of the enclosing ISA into a general register, under `CsrAccessOK`. -/
  | csrRead (r : CsrRef) (rd : Reg)
  /-- A write of a general register by the enclosing ISA. -/
  | setReg (r : Reg) (v : Word)
  /-- A write of the program counter by the enclosing model: a jump, a trap entry, a trap return. -/
  | setPc (v : Word)
  /-- New inputs: a mode change, another translation, other permissions. -/
  | supply (inputs : Inputs)
  /-- The enclosing model takes the trap that the last step ended with (60_exceptions.md R96). -/
  | takeTrap
  deriving DecidableEq, Repr

/-! ## The state -/

/-- The state of the machine. -/
structure State where
  /-- The implementation's parameters; no step writes them. -/
  cfg : Config
  /-- `Csr(c)`, each XLEN bits (10_state.md R15). The value of a CSR that is not present is 0 and is read by nothing. -/
  csrs : PerCsr Word
  /-- `x[0..31]` (10_state.md R33). -/
  regs : Vector Word 32
  /-- The program counter (10_state.md R34). -/
  pc : Word
  /-- `Mem` (20_memory.md R50). -/
  mem : Memory
  /-- `Cache` (20_memory.md R50). -/
  cache : Cache
  /-- The inputs in force (00_scope.md R9; assumption 14). -/
  inputs : Inputs
  /-- The trap that the last step ended with and the enclosing model has not taken yet (00_scope.md R11;
  assumption 6). -/
  trap : Option Trap
  /-- MODEL'S OWN: counts the steps, so that each step's free values are its own (assumption 16). -/
  tick : Nat
  /-- MODEL'S OWN: what happens before each of the coming steps, the next step's first; nothing where the list is empty
  (assumption 15). -/
  pending : List (List Event)
  deriving DecidableEq, Repr

/-- Why the machine stops. -/
inductive Fault where
  /-- Raised by `step` where the current or the effective mode is one the configuration does not have: not a state of the
  spec's machine (60_exceptions.md R99, 95_test_vectors.md V60). Safe: nothing runs. -/
  | modeNotPresent
  deriving DecidableEq, Repr

/-- Why the model gives an instruction no meaning. -/
inductive Refusal where
  /-- Raised by a rejected arm of `exec`: the instruction has no meaning yet. Safe. -/
  | notModelled (mnemonic : String)
  /-- Raised by `step` on a word that is none of the four instructions: "This spec's model must refuse such a word"
  (30_encoding.md R63). Safe. -/
  | notCmoInstruction (why : DecodeReject) (word : BitVec 32)
  /-- Raised by `step` where `CMO_IMPLEMENTED` is false: then `ENC` is undefined on every word (30_encoding.md R63,
  93_implementation_defined.md I4). Safe. -/
  | extensionNotImplemented
  deriving DecidableEq, Repr

/-! ## Reset -/

/-- What a CSR holds at launch: `RESET_c` where it is present (10_state.md R37), nothing (0) where it is not. -/
def launchCsr (c : Config) (r : Csr) : Word :=
  if Csr.present c r then c.resetValue.get r else 0

/-- The four CSRs at launch. -/
def launchCsrs (c : Config) : PerCsr Word where
  mcmocontrol := launchCsr c .mcmocontrol
  scmocontrol := launchCsr c .scmocontrol
  hcmocontrol := launchCsr c .hcmocontrol
  vscmocontrol := launchCsr c .vscmocontrol

/-- The inputs after reset: M-mode (70_reset_and_hazards.md R106, by RISC-V convention), no translation, all permissions
granted, no other fault. PRESUMED (assumption 3). -/
def resetInputs : Inputs where
  curMode := .M
  effMode := .M
  satpBare := true
  hgatpBare := true
  vsatpBare := true
  granted := ⟨.W1, .W1, .W1, .W1⟩
  dataXlat := []
  fetchXlat := []
  otherFaults := []

/-- The state in which a hart of any configuration starts when its registers, memory and cache are empty. -/
def State.launch (c : Config) : State where
  cfg := c
  csrs := launchCsrs c
  regs := Vector.replicate 32 0
  pc := 0
  mem := []
  cache := []
  inputs := resetInputs
  trap := none
  tick := 0
  pending := []

/-- The machine right after reset. The spec states no reset value for anything (70_reset_and_hazards.md R105): every value here
is the model's, named in assumptions 1 to 4. -/
def State.reset : State := State.launch Config.atReset

end Sys2Proof.Machine
end

