-- ==== Sys2Proof/Machine/Ops.lean ====
section
/-! DEFINITION. The named operations over memory, the cache, the registers and the CSRs, and the two ways a step of one
instruction ends: retiring and taking a trap. -/

namespace Sys2Proof.Machine

/-! ## Memory -/

/-- The byte of memory at an address. -/
def Memory.read : Memory → Nat → Byte
  | [], _ => unlistedByte
  | (k, v) :: rest, a => if k = a then v else Memory.read rest a

/-- A cell in front of a memory, unless it says what an unlisted address reads as anyway. -/
def consCell (a : Nat) (v : Byte) (m : Memory) : Memory :=
  if v = unlistedByte then m else (a, v) :: m

/-- Memory with one byte written, in canonical form. -/
def Memory.write : Memory → Nat → Byte → Memory
  | [], a, v => consCell a v []
  | (k, w) :: rest, a, v =>
    if k < a then (k, w) :: Memory.write rest a v
    else if k = a then consCell a v rest
    else consCell a v ((k, w) :: rest)

/-- The bytes of memory at `a`, `a + 1`, … -/
def Memory.readBytes (m : Memory) (a n : Nat) : List Byte :=
  (List.range n).map fun i => m.read (a + i)

/-- Memory with bytes written at `a`, `a + 1`, … -/
def Memory.writeBytes : Memory → Nat → List Byte → Memory
  | m, _, [] => m
  | m, a, v :: vs => Memory.writeBytes (m.write a v) (a + 1) vs

/-! ## Cache blocks (20_memory.md R43) -/

/-- `CBSIZE`. -/
def blockSize (c : Config) : Nat := 2 ^ c.cbLog

/-- The base of the block that holds a byte address. -/
def blockBase (c : Config) (a : Nat) : Nat := a - a % blockSize c

/-- `Cache[b]`: a cached copy, or none where the block is `Absent`. -/
def Cache.find : Cache → Nat → Option Line
  | [], _ => none
  | (k, l) :: rest, b => if k = b then some l else Cache.find rest b

/-- `Cache[b] <- Present(l)`. -/
def Cache.put : Cache → Nat → Line → Cache
  | [], b, l => [(b, l)]
  | (k, x) :: rest, b, l =>
    if k < b then (k, x) :: Cache.put rest b l
    else if k = b then (b, l) :: rest
    else (b, l) :: (k, x) :: rest

/-- `Cache[b] <- Absent`. -/
def Cache.drop : Cache → Nat → Cache
  | [], _ => []
  | (k, x) :: rest, b => if k = b then Cache.drop rest b else (k, x) :: Cache.drop rest b

/-! ## The three management operations (20_memory.md R44 to R46, R53) -/

/-- `CacheInval(b)`: every cached copy goes, without a write back. -/
def cacheInval (s : State) (b : Nat) : State := { s with cache := s.cache.drop b }

/-- `CacheClean(b)`: a modified copy updates memory and stays, no longer modified. -/
def cacheClean (s : State) (b : Nat) : State :=
  match s.cache.find b with
  | some ⟨d, true⟩ => { s with mem := s.mem.writeBytes b d, cache := s.cache.put b ⟨d, false⟩ }
  | some ⟨_, false⟩ => s
  | none => s

/-- `CacheFlush(b)`: a clean operation followed by an invalidate operation. -/
def cacheFlush (s : State) (b : Nat) : State := cacheInval (cacheClean s b) b

/-! ## Spontaneous transitions (20_memory.md R51) -/

/-- *Fill*: an absent block becomes present with memory's bytes. -/
def cacheFill (s : State) (b : Nat) : State :=
  match s.cache.find b with
  | some _ => s
  | none => { s with cache := s.cache.put b ⟨s.mem.readBytes b (blockSize s.cfg), false⟩ }

/-- *Write back*: a modified copy updates memory and is no longer modified. -/
def cacheWriteBack (s : State) (b : Nat) : State := cacheClean s b

/-- *Evict*: a copy that is not modified goes. -/
def cacheEvict (s : State) (b : Nat) : State :=
  match s.cache.find b with
  | some ⟨_, false⟩ => { s with cache := s.cache.drop b }
  | some ⟨_, true⟩ => s
  | none => s

/-- Memory with the bytes of `d` at the listed offsets written at `b + offset`. -/
def writeOffsets (m : Memory) (b : Nat) (d : List Byte) : List Nat → Memory
  | [] => m
  | o :: os =>
    match d[o]? with
    | some v => writeOffsets (m.write (b + o) v) b d os
    | none => writeOffsets m b d os

/-- Write back of parts of a modified block, which stays modified: only under `CacheModel.subBlock` (20_memory.md, the end
of section 3). -/
def cacheWriteBackPart (s : State) (b : Nat) (offsets : List Nat) : State :=
  match s.cfg.cacheModel, s.cache.find b with
  | .subBlock, some ⟨d, true⟩ => { s with mem := writeOffsets s.mem b d offsets }
  | .subBlock, some ⟨_, false⟩ => s
  | .subBlock, none => s
  | .reference, _ => s

/-! ## Reads and writes through the cache (20_memory.md R52) -/

/-- `MemRead(pa, 1)`: from the cached copy where there is one, otherwise from memory. -/
def readByte (s : State) (a : Nat) : Byte :=
  let b := blockBase s.cfg a
  match s.cache.find b with
  | some l => l.data.getD (a - b) (s.mem.read a)
  | none => s.mem.read a

/-- `MemRead(pa, n)`. -/
def memRead (s : State) (a n : Nat) : List Byte := (List.range n).map fun i => readByte s (a + i)

/-- The bytes of `d` from offset `o` on replaced by `bytes`. -/
def splice (d : List Byte) (o : Nat) (bytes : List Byte) : List Byte :=
  d.take o ++ bytes ++ d.drop (o + bytes.length)

/-- `MemWrite` of bytes that lie in the one block `b`, from offset `o` on: fill the block where it is absent, replace the
bytes, and mark the copy modified. -/
def memWriteBlock (s : State) (b o : Nat) (bytes : List Byte) : State :=
  let t := cacheFill s b
  match t.cache.find b with
  | some l => { t with cache := t.cache.put b ⟨splice l.data o bytes, true⟩ }
  | none => t

/-- The per-block parts of an access, in ascending address order; `n` bounds the number of parts. -/
def memWriteParts : Nat → State → Nat → List Byte → State
  | 0, s, _, _ => s
  | n + 1, s, a, bytes =>
    match bytes with
    | [] => s
    | _ :: _ =>
      let b := blockBase s.cfg a
      let room := b + blockSize s.cfg - a
      memWriteParts n (memWriteBlock s b (a - b) (bytes.take room)) (a + room) (bytes.drop room)

/-- `MemWrite(pa, n, v)`, across blocks where the access spans them. -/
def memWrite (s : State) (a : Nat) (bytes : List Byte) : State :=
  memWriteParts bytes.length s a bytes

/-- `BlockZero(b)`: `MemWrite(b, CBSIZE, 0)` (20_memory.md R54). -/
def blockZero (s : State) (b : Nat) : State :=
  memWriteBlock s b 0 (List.replicate (blockSize s.cfg) 0#8)

/-! ## Placing a program

A program comes into memory from outside the machine (assumption 9): a byte so placed stands in memory and in the cached
copy of its block where there is one, so that it reads the same through both. -/

/-- One byte placed. -/
def placeByte (s : State) (a : Nat) (v : Byte) : State :=
  let b := blockBase s.cfg a
  match s.cache.find b with
  | some l => { s with mem := s.mem.write a v, cache := s.cache.put b ⟨l.data.set (a - b) v, l.modified⟩ }
  | none => { s with mem := s.mem.write a v }

/-- Bytes placed at `a`, `a + 1`, … -/
def placeBytes : State → Nat → List Byte → State
  | s, _, [] => s
  | s, a, v :: vs => placeBytes (placeByte s a v) (a + 1) vs

/-! ## General registers and the program counter (10_state.md R33, R34) -/

/-- `x[r]`, XLEN bits; `x[0]` reads 0. -/
def readReg (s : State) (r : Reg) : Word :=
  if r = 0 then 0 else s.cfg.xlen.trunc s.regs[r.val]

/-- `x[r] <- v`; a write of `x[0]` is discarded. No CMO instruction does it. -/
def writeReg (s : State) (r : Reg) (v : Word) : State :=
  if r = 0 then s else { s with regs := s.regs.set r.val (s.cfg.xlen.trunc v) }

/-- `pc <- v`, XLEN bits. -/
def writePc (s : State) (v : Word) : State := { s with pc := s.cfg.xlen.trunc v }

/-! ## The four CSRs (10_state.md R23, R28, R29, R40) -/

/-- `Csr(c)`. -/
def readCsr (s : State) (c : Csr) : Word := s.csrs.get c

/-- `Legal_c(old, new)`: zero in every reserved bit, whatever the rule. -/
def legalise (rule : LegalRule) (c : Csr) (old new : Word) : Word :=
  match rule with
  | .mask m => new &&& m &&& definedBits
  | .implementation => Config.freeLegal c old new &&& definedBits

/-- `CsrWrite(c, v)`: `Csr(c) <- Legal_c(Csr(c), v)` on XLEN-bit values (10_state.md R23). A CSR that is not present holds no
state. -/
def writeCsr (s : State) (c : Csr) (v : Word) : State :=
  if Csr.present s.cfg c then
    { s with
      csrs := s.csrs.set c (legalise (s.cfg.legal.get c) c (s.cfg.xlen.trunc (s.csrs.get c)) (s.cfg.xlen.trunc v)) }
  else s

/-- The register a CSR number names. -/
def csrOfNumber (c : Config) (n : BitVec 12) : Option Csr :=
  Csr.all.find? fun r => c.addr.get r == some n

/-- The register an access reaches. With `vsRedirect`, VS-mode's access to the number of `scmocontrol` reaches
`vscmocontrol` (10_state.md R40). -/
def resolveCsr (c : Config) (m : Mode) : CsrRef → Option Csr
  | .named r => some r
  | .number n =>
    match csrOfNumber c n with
    | some .scmocontrol => if c.vsRedirect && m == .VS then some .vscmocontrol else some .scmocontrol
    | r => r

/-- `CsrAccessOK(c, cur_mode)`, of a register that is present. -/
def csrAccessOk (c : Config) (r : Csr) (m : Mode) : Bool :=
  Csr.present c r && c.csrAccess.contains (r, m)

/-- The register an access of the enclosing ISA reaches, where it may. -/
def accessibleCsr (s : State) (r : CsrRef) : Option Csr :=
  match resolveCsr s.cfg s.inputs.curMode r with
  | some c => if csrAccessOk s.cfg c s.inputs.curMode then some c else none
  | none => none

/-! ## How a step ends (00_scope.md R11) -/

/-- `Retire`: `pc <- pc + 4` modulo 2^XLEN (10_state.md R34), and no trap. -/
def retire (s : State) : State :=
  { s with pc := s.cfg.xlen.trunc (s.pc + 4), trap := none }

/-- `Trap(kind, info)`: taking an exception. No state of 10_state.md R25 changes, the program counter stays at the trapping
instruction, and the outcome stands for the enclosing model to take (60_exceptions.md R96). -/
def takeException (s : State) (kind : ExcKind) (info : Option Word) : State :=
  { s with trap := some ⟨kind, info⟩ }

/-- The enclosing model takes the trap over. Nothing else changes: "Nothing in the xcmocontrol registers is saved, stacked or
restored by a trap" (60_exceptions.md R97), and what trap entry and return do to the rest comes as events of the enclosing
model. -/
def trapTaken (s : State) : State := { s with trap := none }

/-- The number of an exception in the RISC-V privileged architecture (60_exceptions.md R89;
assumption 20). -/
def ExcKind.cause (v : FaultVariant) : ExcKind → Nat
  | .illegalInstruction => 2
  | .fault .accessFault => match v with | .store => 7 | .load => 5
  | .fault .pageFault => match v with | .store => 15 | .load => 13
  | .fault .guestPageFault => match v with | .store => 23 | .load => 21

/-- The number of the trap that stands for the enclosing model to take. -/
def pendingCause (s : State) : Option Nat := s.trap.map fun t => t.kind.cause s.cfg.invalFaultKind

end Sys2Proof.Machine
end

