-- ==== Sys2Proof/Machine/Operands.lean ====
section
/-! DEFINITION. The one operand form of the four instructions: the address `ea` (40_cbo_management.md R78), its physical
address and its block. -/

namespace Sys2Proof.Machine

/-- Whether a region holds an address. -/
def XlatRegion.holds (r : XlatRegion) (a : Nat) : Bool := decide (r.vbase ≤ a) && decide (a < r.vbase + r.size)

/-- The physical address of an address: the first region that holds it, and identity where none does (20_memory.md R41). -/
def translate (rs : List XlatRegion) (a : Nat) : Nat :=
  match rs.find? fun r => r.holds a with
  | some r => r.pbase + (a - r.vbase)
  | none => a

/-- `ea = x[rs1]`, used as it stands (30_encoding.md R62). -/
def effectiveAddress (s : State) (rs1 : Reg) : Word := readReg s rs1

/-- `pa(ea)`, in the effective privilege mode. -/
def physAddr (s : State) (ea : Word) : Nat := translate s.inputs.dataXlat ea.toNat

/-- `block(pa(ea))`: the base of the block the instruction operates on. `ea` needs no alignment (20_memory.md R43, R56;
assumption 21). -/
def operandBlock (s : State) (ea : Word) : Nat := blockBase s.cfg (physAddr s ea)

/-- `OtherFault(insn, eff_mode, ea)` (40_cbo_management.md R79). -/
def otherFault (s : State) (op : CmoOp) (ea : Word) : Option MemFault :=
  (s.inputs.otherFaults.find? fun r =>
    r.op == op && r.mode == s.inputs.effMode && decide (r.base ≤ ea.toNat) && decide (ea.toNat < r.base + r.size)).map
    OtherFaultRow.fault

end Sys2Proof.Machine
end

