-- ==== Sys2Proof/Machine/Flags.lean ====
section
/-! DEFINITION. The control bits. The extension defines no status flag (10_state.md R35); what the instructions test are the
six fields of the `xcmocontrol` registers: when an instruction is illegal (40_cbo_management.md R68, 41_cbo_write.md R84), when
`CBO.INVAL` faults (R71, R72), and which operation it performs (R73, R74). -/

namespace Sys2Proof.Machine

/-- The six defined fields (10_state.md R15). -/
inductive Field where
  | CBME
  | CBWE
  | INVW0I
  | INVW0E
  | INVW1I
  | INVW1E
  deriving DecidableEq, Repr

/-- Where the field stands in the register (10_state.md R16, R17, R19 to R22). -/
def Field.bit : Field → Nat
  | .CBME => 0
  | .CBWE => 1
  | .INVW0I => 8
  | .INVW0E => 9
  | .INVW1I => 10
  | .INVW1E => 11

/-- `v.FIELD` of a register value. -/
def fieldOf (v : Word) (f : Field) : Bool := v.getLsbD f.bit

/-- `F(c).X`: the field of a CSR that is present, 1 of one that is not (40_cbo_management.md R69;
assumption 18). -/
def csrField (s : State) (c : Csr) (f : Field) : Bool :=
  if Csr.present s.cfg c then fieldOf (readCsr s c) f else true

/-! ## Illegal instruction -/

/-- `IllegalCBM(mode)` (40_cbo_management.md R68). -/
def illegalCBM (s : State) : Mode → Bool
  | .M => false
  | .S => !csrField s .mcmocontrol .CBME
  | .U => !csrField s .mcmocontrol .CBME || !csrField s .scmocontrol .CBME
  | .VS => !csrField s .mcmocontrol .CBME || !csrField s .hcmocontrol .CBME
  | .VU => !csrField s .mcmocontrol .CBME || !csrField s .hcmocontrol .CBME || !csrField s .vscmocontrol .CBME

/-- `IllegalCBW(mode)` (41_cbo_write.md R84). -/
def illegalCBW (s : State) : Mode → Bool
  | .M => false
  | .S => !csrField s .mcmocontrol .CBWE
  | .U => !csrField s .mcmocontrol .CBWE || !csrField s .scmocontrol .CBWE
  | .VS => !csrField s .mcmocontrol .CBWE || !csrField s .hcmocontrol .CBWE
  | .VU => !csrField s .mcmocontrol .CBWE || !csrField s .hcmocontrol .CBWE || !csrField s .vscmocontrol .CBWE

/-! ## Faults of `CBO.INVAL` -/

/-- `E(c)`, the source's `c.INVWxE` (40_cbo_management.md R71). -/
def enableBit (s : State) (c : Csr) : Bool :=
  match s.inputs.granted.get c with
  | .W1 => csrField s c .INVW1E
  | .W0 => csrField s c .INVW0E

/-- Whether the page table of a CSR's protection mechanism is `Bare`; the PMP and PMAs have no such escape
(10_state.md R27, 40_cbo_management.md R72). -/
def mechanismBare (s : State) : Csr → Bool
  | .mcmocontrol => false
  | .scmocontrol => s.inputs.satpBare
  | .hcmocontrol => s.inputs.hgatpBare
  | .vscmocontrol => s.inputs.vsatpBare

/-- `pass_c`: the mechanism of a CSR lets the access through. -/
def passes (s : State) (c : Csr) : Bool := enableBit s c || mechanismBare s c

/-- `InvalFault(mode)` (40_cbo_management.md R72). -/
def invalFault (s : State) : Mode → Option MemFault
  | .M => none
  | .S => if !passes s .mcmocontrol then some .accessFault else none
  | .U =>
    if !passes s .scmocontrol then some .pageFault
    else if !passes s .mcmocontrol then some .accessFault else none
  | .VS =>
    if !passes s .hcmocontrol then some .guestPageFault
    else if !passes s .mcmocontrol then some .accessFault else none
  | .VU =>
    if !passes s .vscmocontrol then some .pageFault
    else if !passes s .hcmocontrol then some .guestPageFault
    else if !passes s .mcmocontrol then some .accessFault else none

/-- `Combine(o, f)` with its draw (40_cbo_management.md R79): where the two differ in kind, either may be reported. -/
def combine (draw : Bool) (o f : Option MemFault) : Option MemFault :=
  match o, f with
  | none, _ => f
  | some _, none => o
  | some k, some j => if k = j then some j else if draw then some k else some j

/-! ## Operation of `CBO.INVAL` -/

/-- The two operations `CBO.INVAL` can perform. -/
inductive InvalOp where
  | invalidate
  | flush
  deriving DecidableEq, Repr

/-- Whether a CSR's protection mechanism is enabled (40_cbo_management.md R73). -/
def mechanismEnabled (s : State) : Csr → Bool
  | .mcmocontrol => s.cfg.mProtEnabled
  | .scmocontrol => !s.inputs.satpBare
  | .hcmocontrol => !s.inputs.hgatpBare
  | .vscmocontrol => !s.inputs.vsatpBare

/-- `I(c)`, the source's `c.INVWxI` (40_cbo_management.md R73). -/
def invalidateBit (s : State) (c : Csr) : Bool :=
  if mechanismEnabled s c then
    match s.inputs.granted.get c with
    | .W1 => csrField s c .INVW1I
    | .W0 => csrField s c .INVW0I
  else csrField s c .INVW0I && csrField s c .INVW1I

/-- Whether `CBO.INVAL` performs an invalidate operation in a mode: the "Invalidate" column of the source's list. -/
def invalidates (s : State) : Mode → Bool
  | .M => true
  | .S => invalidateBit s .mcmocontrol
  | .U => invalidateBit s .scmocontrol && invalidateBit s .mcmocontrol
  | .VS => invalidateBit s .hcmocontrol && invalidateBit s .mcmocontrol
  | .VU => invalidateBit s .vscmocontrol && invalidateBit s .hcmocontrol && invalidateBit s .mcmocontrol

/-- `InvalOp(mode)` (40_cbo_management.md R74). -/
def invalOp (s : State) (m : Mode) : InvalOp := if invalidates s m then .invalidate else .flush

end Sys2Proof.Machine
end

