-- ==== Sys2Proof/Machine/Boundary.lean ====
section
/-! DEFINITION. What lies around the execution of one instruction: the events between two steps, the fetch, and how a program
is placed where the next fetch reads. The spec leaves all of it to an enclosing model (00_scope.md R8) and states what that
model may do to this spec's state; the step calls these definitions. -/

namespace Sys2Proof.Machine

/-! ## Events -/

/-- What one event does. An access to a CSR that may not be reached is outside this spec (10_state.md R29): it changes
nothing here (assumption 13). -/
def applyEvent (s : State) : Event → State
  | .fill a => cacheFill s (blockBase s.cfg a)
  | .writeBack a => cacheWriteBack s (blockBase s.cfg a)
  | .evict a => cacheEvict s (blockBase s.cfg a)
  | .writeBackPart a offsets => cacheWriteBackPart s (blockBase s.cfg a) offsets
  | .store pa bytes => memWrite s pa bytes
  | .csrWrite r v =>
    match accessibleCsr s r with
    | some c => writeCsr s c v
    | none => s
  | .csrRead r rd =>
    match accessibleCsr s r with
    | some c => writeReg s rd (readCsr s c)
    | none => s
  | .setReg r v => writeReg s r v
  | .setPc v => writePc s v
  | .supply i => { s with inputs := i }
  | .takeTrap => trapTaken s

/-- A spontaneous transition of the cache, as against an act of the enclosing model (20_memory.md R51). -/
def Event.spontaneous : Event → Bool
  | .fill _ => true
  | .writeBack _ => true
  | .evict _ => true
  | .writeBackPart _ _ => true
  | .store _ _ => false
  | .csrWrite _ _ => false
  | .csrRead _ _ => false
  | .setReg _ _ => false
  | .setPc _ => false
  | .supply _ => false
  | .takeTrap => false

/-- Events one after the other. -/
def applyEvents : State → List Event → State
  | s, [] => s
  | s, e :: es => applyEvents (applyEvent s e) es

/-- The state in which the next instruction is fetched: the events before this step have happened, and the step's free
values are fresh. -/
def boundary (s : State) : State :=
  match s.pending with
  | [] => { s with tick := s.tick + 1 }
  | es :: rest => applyEvents { s with tick := s.tick + 1, pending := rest } es

/-! ## Fetch -/

/-- Where the next instruction is fetched: the physical address of `pc`. -/
def fetchAddr (s : State) : Nat := translate s.inputs.fetchXlat (s.cfg.xlen.trunc s.pc).toNat

/-- The four bytes of the next instruction. What the instruction fetch unit sees of memory, and when, is not specified
(20_memory.md R57 (b); 91_not_in_source.md N15). DESIGN CHOICE (assumption 10): it sees either the bytes a read through the cache
returns or those of memory, at the moment of the fetch and nothing older. Where the two differ a free value decides; where
they agree those bytes are fetched, so a store that was cleaned is seen by the very next fetch. -/
def fetchBytes (s : State) : List Byte :=
  let viaCache := memRead s (fetchAddr s) 4
  let viaMemory := s.mem.readBytes (fetchAddr s) 4
  if viaCache = viaMemory then viaMemory
  else if Config.fetchSeesCache s.tick then viaCache else viaMemory

/-- Four bytes as a word. -/
def wordOfList (o : ByteOrder) : List Byte → BitVec 32
  | [b0, b1, b2, b3] => wordOfBytes o b0 b1 b2 b3
  | _ => 0

/-- The word of the next instruction. -/
def fetchWord (s : State) : BitVec 32 := wordOfList s.cfg.fetchOrder (fetchBytes s)

/-- Whether both modes in force exist. -/
def modesPresent (s : State) : Bool :=
  Mode.present s.cfg s.inputs.curMode && Mode.present s.cfg s.inputs.effMode

/-- What a step does at its boundary. -/
inductive Action where
  /-- Run this instruction. -/
  | run (i : Instr)
  /-- Wait: a trap is still to be taken by the enclosing model. -/
  | wait
  | stop (r : Refusal)
  | halt (f : Fault)
  deriving DecidableEq, Repr

/-- The next thing to do, in the state the boundary gives. With a trap untaken the hart runs nothing: what follows a trap is
the enclosing model's (60_exceptions.md R96). -/
def nextAction (s : State) : Action :=
  if !modesPresent s then .halt .modeNotPresent
  else if s.trap.isSome then .wait
  else if !s.cfg.cmoImplemented then .stop .extensionNotImplemented
  else
    match decodeEnc s.cfg.enc (fetchWord s) with
    | .ok i => .run i
    | .error e => .stop (.notCmoInstruction e (fetchWord s))

/-! ## Placing the next instruction -/

/-- A state in which nothing happens before the next step. -/
def quietBoundary (s : State) : State :=
  match s.pending with
  | [] => s
  | _ :: rest => { s with pending := [] :: rest }

/-- The low `nbits` bits of `w` as an instruction word, placed where the next step fetches; no event and no untaken trap
stands before it. -/
def placeInstruction (s : State) (nbits w : Nat) : State :=
  placeBytes (trapTaken (quietBoundary s)) (fetchAddr s)
    (bytesOfWord s.cfg.fetchOrder (BitVec.ofNat 32 (w % 2 ^ nbits)))

end Sys2Proof.Machine
end

