-- ==== Sys2Proof/Machine/Management.lean ====
section
/-! DEFINITION. The shape of a step of one CMO instruction, and the three cache block management instructions
(40_cbo_management.md R67, R75 to R77). -/

namespace Sys2Proof.Machine

/-- The four things a step of one instruction does, in order, stopping at the first that raises (40_cbo_management.md R67,
41_cbo_write.md R83): the illegal-instruction test, the fault of the access at `ea`, the operation on the block, `pc + 4`. -/
def cmoStep (illegal : Bool) (fault : Option MemFault) (ea : Word) (operate : State → State) (s : State) :
    Host.Outcome State Fault Refusal :=
  if illegal then .next (takeException s .illegalInstruction none)
  else
    match fault with
    | some f => .next (takeException s (.fault f) (some ea))
    | none => .next (retire (operate s))

/-- The fault a `CBO.INVAL` reports: `Combine(OtherFault, InvalFault)` in the effective mode (40_cbo_management.md R79). -/
def invalReportedFault (s : State) (ea : Word) : Option MemFault :=
  combine (Config.combineDraw s.tick) (otherFault s .inval ea) (invalFault s s.inputs.effMode)

/-- The operation a `CBO.INVAL` performs on a block when it raises nothing (40_cbo_management.md R74). -/
def invalOperate (b : Nat) (s : State) : State :=
  match invalOp s s.inputs.effMode with
  | .invalidate => cacheInval s b
  | .flush => cacheFlush s b

/-- `CBO.INVAL rs1` (40_cbo_management.md R75). -/
def execCboInval (rs1 : Reg) (s : State) : Host.Outcome State Fault Refusal :=
  let ea := effectiveAddress s rs1
  cmoStep (illegalCBM s s.inputs.curMode) (invalReportedFault s ea) ea (invalOperate (operandBlock s ea)) s

/-- `CBO.CLEAN rs1` (40_cbo_management.md R76). -/
def execCboClean (rs1 : Reg) (s : State) : Host.Outcome State Fault Refusal :=
  let ea := effectiveAddress s rs1
  cmoStep (illegalCBM s s.inputs.curMode) (otherFault s .clean ea) ea (cacheClean · (operandBlock s ea)) s

/-- `CBO.FLUSH rs1` (40_cbo_management.md R77). -/
def execCboFlush (rs1 : Reg) (s : State) : Host.Outcome State Fault Refusal :=
  let ea := effectiveAddress s rs1
  cmoStep (illegalCBM s s.inputs.curMode) (otherFault s .flush ea) ea (cacheFlush · (operandBlock s ea)) s

end Sys2Proof.Machine
end

