-- ==== Sys2Proof/Machine/Write.lean ====
section
/-! DEFINITION. The cache block write instruction (41_cbo_write.md R83 to R86). -/

namespace Sys2Proof.Machine

/-- `CBO.ZERO rs1` (41_cbo_write.md R85). The `INVW*` bits play no part (R86). -/
def execCboZero (rs1 : Reg) (s : State) : Host.Outcome State Fault Refusal :=
  let ea := effectiveAddress s rs1
  cmoStep (illegalCBW s s.inputs.curMode) (otherFault s .zero ea) ea (blockZero · (operandBlock s ea)) s

end Sys2Proof.Machine
end

