-- ==== Sys2Proof/Machine/Dispatch.lean ====
section
/-! DEFINITION. One arm per constructor of Instr. -/

namespace Sys2Proof.Machine

/-- The execution of one decoded instruction: the step of 00_scope.md R8. -/
def exec (i : Instr) (s : State) : Host.Outcome State Fault Refusal :=
  match i with
  | .cboInval rs1 => Sys2Proof.Machine.execCboInval rs1 s
  | .cboClean rs1 => Sys2Proof.Machine.execCboClean rs1 s
  | .cboFlush rs1 => Sys2Proof.Machine.execCboFlush rs1 s
  | .cboZero rs1 => Sys2Proof.Machine.execCboZero rs1 s

end Sys2Proof.Machine
end

