-- ==== Sys2Proof/Machine/Step.lean ====
section
/-! DEFINITION. One step of the hart: what happens before it, then one instruction. -/

namespace Sys2Proof.Machine

/-- One step. -/
def step (s : State) : Host.Outcome State Fault Refusal :=
  match nextAction (boundary s) with
  | .run i => exec i (boundary s)
  | .wait => .next (boundary s)
  | .stop r => .refused r
  | .halt f => .fault f

/-- `s` with an instruction stored where `step` fetches its next one. -/
def State.withFetchWord (s : State) (nbits w : Nat) : State := placeInstruction s nbits w

end Sys2Proof.Machine
end

