-- ==== Sys2Proof/Safety.lean ====
section
/-! DEFINITION. What a legal state is, in the terms the statements use. -/

namespace Sys2Proof.Machine

/-- Memory is in canonical form: addresses strictly rising, no entry that says what an unlisted address reads as. -/
abbrev Memory.wf (m : Memory) : Prop :=
  m.Pairwise (fun x y => x.1 < y.1) ∧ ∀ c ∈ m, c.2 ≠ unlistedByte

/-- One cached copy is legal: it stands at a block base, holds `CBSIZE` bytes, and where it is not modified it equals memory
(the invariant of 20_memory.md R50). -/
abbrev lineOk (c : Config) (m : Memory) (e : Nat × Line) : Prop :=
  e.1 % blockSize c = 0 ∧ e.2.data.length = blockSize c ∧
    (e.2.modified = false → e.2.data = m.readBytes e.1 (blockSize c))

/-- The cache is in canonical form and every copy in it is legal. -/
abbrev Cache.wf (c : Config) (m : Memory) (k : Cache) : Prop :=
  k.Pairwise (fun x y => x.1 < y.1) ∧ ∀ e ∈ k, lineOk c m e

/-- A CSR's reserved bits are zero, and a CSR that is not present holds no state (10_state.md R14, R18, R23 (a), R24). -/
abbrev csrOk (s : State) (c : Csr) : Prop :=
  s.csrs.get c &&& ~~~definedBits = 0 ∧ (Csr.present s.cfg c = false → s.csrs.get c = 0)

/-- `x[0]` is zero and every register holds an XLEN-bit value (10_state.md R33). -/
abbrev regsOk (s : State) : Prop :=
  s.regs[0] = 0 ∧ ∀ r : Reg, s.cfg.xlen.trunc s.regs[r.val] = s.regs[r.val]

/-- A legal state. -/
abbrev State.Inv (s : State) : Prop :=
  s.mem.wf ∧ s.cache.wf s.cfg s.mem ∧ (∀ c ∈ Csr.all, csrOk s c) ∧ regsOk s ∧
    s.cfg.xlen.trunc s.pc = s.pc ∧ modesPresent s = true

/-! ## The spec's formulas, as the statements write them -/

/-- The modes in which a CSR's `CBME` and `CBWE` decide: the table of 10_state.md R26. -/
def governs : Csr → Mode → Bool
  | .mcmocontrol, .M => false
  | .mcmocontrol, .S => true
  | .mcmocontrol, .U => true
  | .mcmocontrol, .VS => true
  | .mcmocontrol, .VU => true
  | .scmocontrol, .M => false
  | .scmocontrol, .S => false
  | .scmocontrol, .U => true
  | .scmocontrol, .VS => false
  | .scmocontrol, .VU => false
  | .hcmocontrol, .M => false
  | .hcmocontrol, .S => false
  | .hcmocontrol, .U => false
  | .hcmocontrol, .VS => true
  | .hcmocontrol, .VU => true
  | .vscmocontrol, .M => false
  | .vscmocontrol, .S => false
  | .vscmocontrol, .U => false
  | .vscmocontrol, .VS => false
  | .vscmocontrol, .VU => true

/-- The bit that enables an instruction: `CBWE` for the cache block write instruction, `CBME` for the other three
(10_state.md R16, R17). -/
def enableField : CmoOp → Field
  | .inval => .CBME
  | .clean => .CBME
  | .flush => .CBME
  | .zero => .CBWE

/-- No CSR that governs the current mode forbids the instruction (40_cbo_management.md R68, 41_cbo_write.md R84). -/
abbrev Legal (s : State) (i : Instr) : Prop :=
  ∀ c ∈ Csr.all, governs c s.inputs.curMode = true → csrField s c (enableField i.op) = true

/-- The instruction's access takes no fault but those due to the CMO control registers (40_cbo_management.md R79). -/
abbrev NoOtherFault (s : State) (i : Instr) : Prop :=
  otherFault s i.op (effectiveAddress s i.rs1) = none

/-- `c.INVWxE` as the source selects it (40_cbo_management.md R71). -/
def selectedE (s : State) (c : Csr) : Bool :=
  csrField s c (if s.inputs.granted.get c = .W1 then .INVW1E else .INVW0E)

/-- `c.INVWxI` of an enabled mechanism (40_cbo_management.md R73). -/
def selectedI (s : State) (c : Csr) : Bool :=
  csrField s c (if s.inputs.granted.get c = .W1 then .INVW1I else .INVW0I)

/-- `c.INVWxI` of a disabled mechanism: "both bits must be set" (40_cbo_management.md R73). -/
def bothI (s : State) (c : Csr) : Bool := csrField s c .INVW0I && csrField s c .INVW1I

/-- `c.INVWxI` of a page table's CSR (40_cbo_management.md R73). -/
def pageI (s : State) (c : Csr) (bare : Bool) : Bool := if bare then bothI s c else selectedI s c

/-- `mcmocontrol.INVWxI` (40_cbo_management.md R73). -/
def machineI (s : State) : Bool := if s.cfg.mProtEnabled then selectedI s .mcmocontrol else bothI s .mcmocontrol

/-- No fault due to the CMO control registers stands in the way of a `CBO.INVAL` (40_cbo_management.md R72): every mechanism
on the path of the effective mode passes. -/
def invalPasses (s : State) : Bool :=
  match s.inputs.effMode with
  | .M => true
  | .S => selectedE s .mcmocontrol
  | .U => (selectedE s .scmocontrol || s.inputs.satpBare) && selectedE s .mcmocontrol
  | .VS => (selectedE s .hcmocontrol || s.inputs.hgatpBare) && selectedE s .mcmocontrol
  | .VU =>
    (selectedE s .vscmocontrol || s.inputs.vsatpBare) && (selectedE s .hcmocontrol || s.inputs.hgatpBare) &&
      selectedE s .mcmocontrol

/-- The "Invalidate" formula of the effective mode (40_cbo_management.md R74). -/
def invalFormula (s : State) : Bool :=
  match s.inputs.effMode with
  | .M => true
  | .S => machineI s
  | .U => pageI s .scmocontrol s.inputs.satpBare && machineI s
  | .VS => pageI s .hcmocontrol s.inputs.hgatpBare && machineI s
  | .VU =>
    pageI s .vscmocontrol s.inputs.vsatpBare && pageI s .hcmocontrol s.inputs.hgatpBare && machineI s

/-! ## Which events write which registers -/

/-- An access that writes a CSR (10_state.md R39). -/
def Event.writesCsr : Event → Bool
  | .fill _ => false
  | .writeBack _ => false
  | .evict _ => false
  | .writeBackPart _ _ => false
  | .store _ _ => false
  | .csrWrite _ _ => true
  | .csrRead _ _ => false
  | .setReg _ _ => false
  | .setPc _ => false
  | .supply _ => false
  | .takeTrap => false

/-- An act of the enclosing ISA that writes a general register. -/
def Event.writesReg : Event → Bool
  | .fill _ => false
  | .writeBack _ => false
  | .evict _ => false
  | .writeBackPart _ _ => false
  | .store _ _ => false
  | .csrWrite _ _ => false
  | .csrRead _ _ => true
  | .setReg _ _ => true
  | .setPc _ => false
  | .supply _ => false
  | .takeTrap => false

/-! ## Outcomes -/

/-- The instruction takes an exception and changes no state but the outcome record (00_scope.md R11). -/
abbrev Takes (i : Instr) (s : State) (k : ExcKind) (info : Option Word) : Prop :=
  exec i s = .next { s with trap := some ⟨k, info⟩ }

/-- Nothing but memory, cache, program counter and the outcome record differs. -/
abbrev SameRegisters (s t : State) : Prop :=
  t.cfg = s.cfg ∧ t.csrs = s.csrs ∧ t.regs = s.regs ∧ t.inputs = s.inputs ∧ t.tick = s.tick ∧ t.pending = s.pending

/-- The instruction retired: `pc + 4`, no trap, every register and CSR as before. -/
abbrev Retired (s t : State) : Prop :=
  t.trap = none ∧ t.pc = s.cfg.xlen.trunc (s.pc + 4) ∧ SameRegisters s t

/-- The base of the block an instruction operates on: the expression its meaning uses. -/
abbrev blockOf (s : State) (i : Instr) : Nat := operandBlock s (effectiveAddress s i.rs1)

/-- An address lies in the block at a base. -/
abbrev InBlock (s : State) (b a : Nat) : Prop := b ≤ a ∧ a < b + blockSize s.cfg

/-- Every cached copy but that of one block is as before. -/
abbrev OtherCopiesKept (s t : State) (b : Nat) : Prop := ∀ b', b' ≠ b → t.cache.find b' = s.cache.find b'

end Sys2Proof.Machine
end

