-- ==== Sys2Proof/Certificates/Slice0/Obligations.lean ====
section
/-! DEFINITION. The statements for the provers. Each docstring names the rule of spec/ it formalises; a statement that rests on
a passage the spec marks as its own (general knowledge, a decision) or on a choice of the model says so. -/

open Sys2Proof Sys2Proof.Machine

/-! ## Decoding -/

/-- Words of the default encoding table (95_test_vectors.md 2.8) decode as the table says, and words near them do not. The
encodings are the spec's own default of `ENC` (93_implementation_defined.md G11; assumption 8). -/
def Obligations.EncodingTableWordsDecode : Prop :=
  decodeWord 0x0000200F#32 = .ok (.cboInval 0) ∧ decodeWord 0x000FA00F#32 = .ok (.cboInval 31) ∧
  decodeWord 0x0015200F#32 = .ok (.cboClean 10) ∧ decodeWord 0x0025A00F#32 = .ok (.cboFlush 11) ∧
  decodeWord 0x0040200F#32 = .ok (.cboZero 0) ∧ decodeWord 0x0045200F#32 = .ok (.cboZero 10) ∧
  decodeWord 0x0030200F#32 = .error .otherImm12 ∧ decodeWord 0x0000208F#32 = .error .rdNotZero ∧
  decodeWord 0x0000100F#32 = .error .otherFunct3 ∧ decodeWord 0x0000200B#32 = .error .otherOpcode

/-- The `match` number of each row of spec/opcode_table.json. -/
def rowMatch : CmoOp → BitVec 32
  | .inval => 0x0000200F#32
  | .clean => 0x0010200F#32
  | .flush => 0x0020200F#32
  | .zero => 0x0040200F#32

/-- A word is an instruction exactly when `(w AND mask) = match` for its row, and its base register is `w[19:15]`: the decoder,
which reads the fields, agrees with the match and mask numbers. Default encoding (G11; assumption 8). -/
def Obligations.DecodeAgreesWithMaskAndMatch : Prop :=
  ∀ (w : BitVec 32) (op : CmoOp) (r : Reg),
    decodeWord w = .ok (op.instr r) ↔ w &&& 0xFFF07FFF#32 = rowMatch op ∧ (w >>> 15).toNat % 32 = r.val

/-- Decoding and encoding agree in both directions, on every word and every instruction. -/
def Obligations.DecodeAndEncodeAgree : Prop :=
  ∀ (w : BitVec 32) (i : Instr), decodeWord w = .ok i ↔ w = encode i

/-- The four rows of spec/opcode_table.json as a table. -/
def opcodeTableRows : List EncRow :=
  [CmoOp.inval, .clean, .flush, .zero].map fun op => ⟨op, 0xFFF07FFF#32, rowMatch op, 15⟩

/-- R59. `ENC` is a parameter: under a well-formed table of rows a word is an instruction exactly when it matches a row, and then
that row's; the table of the four rows of spec/opcode_table.json maps exactly the words that the default maps, and alike; any
other function is the free value `Config.freeEnc` (assumption 8). -/
def Obligations.EncodingIsAParameter : Prop :=
  (∀ (c : Config) (rows : List EncRow) (w : BitVec 32) (i : Instr), c.enc = .table rows → c.encOk = true →
    (decodeEnc c.enc w = .ok i ↔
      ∃ r ∈ rows, w &&& r.mask = r.pattern ∧ i = r.op.instr (regOfBits (w.extractLsb' r.rs1Low 5)))) ∧
  (∀ (w : BitVec 32) (i : Instr),
    decodeEnc (.table opcodeTableRows) w = .ok i ↔ decodeEnc .default w = .ok i) ∧
  (∀ (w : BitVec 32) (i : Instr), decodeEnc .implementation w = .ok i ↔ Config.freeEnc w = some i)

/-- The bytes in front of a byte sequence decode to an instruction exactly when they are its encoding, in either byte order
(the order is OPEN: D20). -/
def Obligations.BytesDecodeInEitherOrder : Prop :=
  ∀ (o : ByteOrder) (bytes rest : List Byte) (i : Instr),
    decodeBytes o bytes = .ok (i, rest) ↔ bytes = encodeBytes o i ++ rest

/-- A written line assembles exactly when its offset is absent or zero and its register is one of the 32, and then names that
register (D23). -/
def Obligations.AssemblyOffsetMustBeZero : Prop :=
  ∀ (a : AsmLine) (i : Instr),
    assemble a = some i ↔ (a.offset = none ∨ a.offset = some 0) ∧ a.base = i.rs1.val ∧ i.op = a.op

/-! ## The step -/

/-- Where the bytes at the program counter decode to an instruction, a step is `exec` of it, in the state the step's boundary
gives; with no event pending that state is the same but for the step counter. -/
def Obligations.StepRunsTheDecodedInstruction : Prop :=
  ∀ (s : State) (i : Instr),
    modesPresent (boundary s) = true → (boundary s).trap = none → (boundary s).cfg.cmoImplemented = true →
    decodeEnc (boundary s).cfg.enc (fetchWord (boundary s)) = .ok i →
      step s = exec i (boundary s) ∧
      (s.pending = [] → boundary s = { s with tick := s.tick + 1 }) ∧
      (∀ es rest, s.pending = es :: rest →
        boundary s = applyEvents { s with tick := s.tick + 1, pending := rest } es)

/-- A word that the configuration's `ENC` maps to an instruction, placed where the next step fetches, is what the next step runs,
in either byte order, whatever stood in memory, cache and the pending events; under the default `ENC` the encoding of an
instruction is such a word (assumptions 8, 9: a program is placed from outside). -/
def Obligations.PlacedInstructionRunsNext : Prop :=
  ∀ (s : State) (w : BitVec 32) (i : Instr), s.Inv → s.cfg.cmoImplemented = true →
    (decodeEnc s.cfg.enc w = .ok i ∨ (s.cfg.enc = .default ∧ w = encode i)) →
    step (s.withFetchWord 32 w.toNat) = exec i (boundary (s.withFetchWord 32 w.toNat)) ∧
    SameRegisters (trapTaken (quietBoundary s)) (s.withFetchWord 32 w.toNat) ∧
    (s.withFetchWord 32 w.toNat).pc = s.pc ∧ (s.withFetchWord 32 w.toNat).Inv

/-- A word that is no CMO instruction is refused, and so is every word where the extension is not implemented. -/
def Obligations.StepRefusesOtherWords : Prop :=
  ∀ s : State, modesPresent (boundary s) = true → (boundary s).trap = none →
    ((boundary s).cfg.cmoImplemented = false → step s = .refused .extensionNotImplemented) ∧
    (∀ e, (boundary s).cfg.cmoImplemented = true →
      decodeEnc (boundary s).cfg.enc (fetchWord (boundary s)) = .error e →
      step s = .refused (.notCmoInstruction e (fetchWord (boundary s))))

/-- While the enclosing model has not taken a trap, a step runs no instruction: only the events of its boundary happen. The
model's choice (assumption 6). -/
def Obligations.StepWaitsForTheTrapToBeTaken : Prop :=
  ∀ s : State, modesPresent (boundary s) = true → (boundary s).trap ≠ none → step s = .next (boundary s)

/-- A mode the configuration does not have is not a state of the machine: the step faults (V60; assumption 7). -/
def Obligations.StepFaultsInAnAbsentMode : Prop :=
  ∀ s : State,
    (Mode.present s.cfg (boundary s).inputs.curMode = false ∨ Mode.present s.cfg (boundary s).inputs.effMode = false) →
      step s = .fault .modeNotPresent

/-! ## Illegal instruction -/

/-- R68. A cache block management instruction takes an illegal instruction exception exactly by the `CBME` formula of the
current mode; equivalently, it is legal exactly when the bit is 1 in every CSR that governs the mode; with `mcmocontrol.CBME`
clear it is illegal in every mode below M. -/
def Obligations.ManagementIllegalExactlyByCBME : Prop :=
  ∀ (s : State) (rs1 : Reg) (i : Instr), (i = .cboInval rs1 ∨ i = .cboClean rs1 ∨ i = .cboFlush rs1) →
    (Takes i s .illegalInstruction none ↔
      (match s.inputs.curMode with
       | .M => false
       | .S => !csrField s .mcmocontrol .CBME
       | .U => !csrField s .mcmocontrol .CBME || !csrField s .scmocontrol .CBME
       | .VS => !csrField s .mcmocontrol .CBME || !csrField s .hcmocontrol .CBME
       | .VU => !csrField s .mcmocontrol .CBME || !csrField s .hcmocontrol .CBME || !csrField s .vscmocontrol .CBME) = true) ∧
    (¬ Takes i s .illegalInstruction none ↔
      ∀ c, governs c s.inputs.curMode = true → csrField s c .CBME = true) ∧
    (csrField s .mcmocontrol .CBME = false → s.inputs.curMode ≠ .M → Takes i s .illegalInstruction none)

/-- R84. `CBO.ZERO` takes an illegal instruction exception exactly by the `CBWE` formula of the current mode, and the two bits
are independent: in one state `CBO.ZERO` is legal and `CBO.CLEAN` illegal, in another the reverse. -/
def Obligations.ZeroIllegalExactlyByCBWE : Prop :=
  (∀ (s : State) (rs1 : Reg),
    Takes (.cboZero rs1) s .illegalInstruction none ↔
      (match s.inputs.curMode with
       | .M => false
       | .S => !csrField s .mcmocontrol .CBWE
       | .U => !csrField s .mcmocontrol .CBWE || !csrField s .scmocontrol .CBWE
       | .VS => !csrField s .mcmocontrol .CBWE || !csrField s .hcmocontrol .CBWE
       | .VU => !csrField s .mcmocontrol .CBWE || !csrField s .hcmocontrol .CBWE || !csrField s .vscmocontrol .CBWE) = true) ∧
  (∃ (s : State) (rs1 : Reg), s.Inv ∧ ¬ Takes (.cboZero rs1) s .illegalInstruction none ∧
    Takes (.cboClean rs1) s .illegalInstruction none) ∧
  (∃ (s : State) (rs1 : Reg), s.Inv ∧ Takes (.cboZero rs1) s .illegalInstruction none ∧
    ¬ Takes (.cboClean rs1) s .illegalInstruction none)

/-- R82. Whether an instruction is illegal does not depend on the `INVW*` bits, on the write permissions, on the page tables'
modes or on the effective mode; and what `CBO.INVAL` does when it is legal does not depend on the `CBME` and `CBWE` bits. -/
def Obligations.EnableBitsAndInvwBitsAreIndependent : Prop :=
  (∀ (s : State) (i : Instr) (csrs : PerCsr Word) (inp : Inputs),
    (∀ c, fieldOf (csrs.get c) .CBME = fieldOf (s.csrs.get c) .CBME ∧
      fieldOf (csrs.get c) .CBWE = fieldOf (s.csrs.get c) .CBWE) → inp.curMode = s.inputs.curMode →
    (Takes i s .illegalInstruction none ↔
      Takes i { s with csrs := csrs, inputs := inp } .illegalInstruction none)) ∧
  (∀ (s : State) (rs1 : Reg) (csrs : PerCsr Word),
    (∀ c, ∀ f ∈ [Field.INVW0I, .INVW0E, .INVW1I, .INVW1E], fieldOf (csrs.get c) f = fieldOf (s.csrs.get c) f) →
    Legal s (.cboInval rs1) → Legal { s with csrs := csrs } (.cboInval rs1) →
    ∃ t, exec (.cboInval rs1) s = .next t ∧
      exec (.cboInval rs1) { s with csrs := csrs } = .next { t with csrs := csrs })

/-- R30. In M-mode as current mode no CMO instruction is illegal; in M-mode as effective mode `CBO.INVAL` never faults due to
the control registers and always invalidates; with both modes M the values of the four CSRs are irrelevant. -/
def Obligations.MachineModeIsGovernedByNoCsr : Prop :=
  (∀ (s : State) (i : Instr), s.inputs.curMode = .M → ¬ Takes i s .illegalInstruction none) ∧
  (∀ (s : State) (rs1 : Reg), s.inputs.effMode = .M → Legal s (.cboInval rs1) → NoOtherFault s (.cboInval rs1) →
    exec (.cboInval rs1) s = .next (retire (cacheInval s (blockOf s (.cboInval rs1))))) ∧
  (∀ (s : State) (i : Instr) (csrs : PerCsr Word), s.inputs.curMode = .M → s.inputs.effMode = .M →
    ∃ t, exec i s = .next t ∧ exec i { s with csrs := csrs } = .next { t with csrs := csrs })

/-- R92. An illegal instruction exception comes before every fault: an instruction that some governing CSR forbids reports
it whatever the other faults, the `INVW*` bits and the permissions are. -/
def Obligations.IllegalComesBeforeEveryFault : Prop :=
  ∀ (s : State) (i : Instr), ¬ Legal s i → Takes i s .illegalInstruction none

/-! ## Faults of `CBO.INVAL` -/

/-- R71, R72. A legal `CBO.INVAL` with no other fault takes each kind of fault exactly by the formula of the effective mode, with
`info = ea`, and changes nothing else. -/
def Obligations.InvalFaultsExactlyByEnableBits : Prop :=
  ∀ (s : State) (rs1 : Reg), Legal s (.cboInval rs1) → NoOtherFault s (.cboInval rs1) →
    let ea := some (effectiveAddress s rs1)
    let em := selectedE s .mcmocontrol
    let es := selectedE s .scmocontrol || s.inputs.satpBare
    let eh := selectedE s .hcmocontrol || s.inputs.hgatpBare
    let ev := selectedE s .vscmocontrol || s.inputs.vsatpBare
    (Takes (.cboInval rs1) s (.fault .pageFault) ea ↔
      (match s.inputs.effMode with | .M => false | .S => false | .U => !es | .VS => false | .VU => !ev) = true) ∧
    (Takes (.cboInval rs1) s (.fault .guestPageFault) ea ↔
      (match s.inputs.effMode with | .M => false | .S => false | .U => false | .VS => !eh | .VU => ev && !eh) = true) ∧
    (Takes (.cboInval rs1) s (.fault .accessFault) ea ↔
      (match s.inputs.effMode with
       | .M => false | .S => !em | .U => es && !em | .VS => eh && !em | .VU => ev && eh && !em) = true)

/-- R93. Page fault (from `vscmocontrol` in VU-mode, from `scmocontrol` in U-mode), then guest-page fault (from `hcmocontrol`),
then access fault (from `mcmocontrol`): a later one is reported only if every earlier mechanism passed. -/
def Obligations.LaterFaultOnlyIfEarlierMechanismsPassed : Prop :=
  ∀ (s : State) (rs1 : Reg) (info : Option Word), NoOtherFault s (.cboInval rs1) →
    (Takes (.cboInval rs1) s (.fault .pageFault) info →
      (s.inputs.effMode = .VU ∧ passes s .vscmocontrol = false) ∨
        (s.inputs.effMode = .U ∧ passes s .scmocontrol = false)) ∧
    (Takes (.cboInval rs1) s (.fault .guestPageFault) info →
      passes s .hcmocontrol = false ∧
        (s.inputs.effMode = .VS ∨ (s.inputs.effMode = .VU ∧ passes s .vscmocontrol = true))) ∧
    (Takes (.cboInval rs1) s (.fault .accessFault) info →
      passes s .mcmocontrol = false ∧
      (s.inputs.effMode = .U → passes s .scmocontrol = true) ∧
      (s.inputs.effMode = .VS → passes s .hcmocontrol = true) ∧
      (s.inputs.effMode = .VU → passes s .vscmocontrol = true ∧ passes s .hcmocontrol = true)) ∧
    (Legal s (.cboInval rs1) →
      (s.inputs.effMode = .U → passes s .scmocontrol = false →
        Takes (.cboInval rs1) s (.fault .pageFault) (some (effectiveAddress s rs1))) ∧
      (s.inputs.effMode = .VU → passes s .vscmocontrol = false →
        Takes (.cboInval rs1) s (.fault .pageFault) (some (effectiveAddress s rs1))) ∧
      (s.inputs.effMode = .VS → passes s .hcmocontrol = false →
        Takes (.cboInval rs1) s (.fault .guestPageFault) (some (effectiveAddress s rs1))) ∧
      (s.inputs.effMode = .VU → passes s .vscmocontrol = true → passes s .hcmocontrol = false →
        Takes (.cboInval rs1) s (.fault .guestPageFault) (some (effectiveAddress s rs1))) ∧
      (s.inputs.effMode = .S → passes s .mcmocontrol = false →
        Takes (.cboInval rs1) s (.fault .accessFault) (some (effectiveAddress s rs1))) ∧
      (s.inputs.effMode = .U → passes s .scmocontrol = true → passes s .mcmocontrol = false →
        Takes (.cboInval rs1) s (.fault .accessFault) (some (effectiveAddress s rs1))) ∧
      (s.inputs.effMode = .VS → passes s .hcmocontrol = true → passes s .mcmocontrol = false →
        Takes (.cboInval rs1) s (.fault .accessFault) (some (effectiveAddress s rs1))) ∧
      (s.inputs.effMode = .VU → passes s .vscmocontrol = true → passes s .hcmocontrol = true →
        passes s .mcmocontrol = false →
          Takes (.cboInval rs1) s (.fault .accessFault) (some (effectiveAddress s rs1))))

/-- R79. A legal `CBO.CLEAN`, `CBO.FLUSH` or `CBO.ZERO` whose access takes another fault reports that fault with its address and
has no effect; a legal `CBO.INVAL` does where the control registers give none. -/
def Obligations.OtherFaultIsReported : Prop :=
  ∀ (s : State) (i : Instr) (f : MemFault), Legal s i → otherFault s i.op (effectiveAddress s i.rs1) = some f →
    (i.op = .inval → invalPasses s = true) →
    Takes i s (.fault f) (some (effectiveAddress s i.rs1))

/-- R79, D27. Where a `CBO.INVAL` has another fault and one due to the control registers, it reports one of the two: the other
fault where the step's draw is true, the one due to the control registers where it is false. Nothing is known of the draw
(assumption 11), so both outcomes are admitted. -/
def Obligations.CombineReportsOneOfTheTwo : Prop :=
  (∀ (s : State) (rs1 : Reg) (o f : MemFault), Legal s (.cboInval rs1) →
    otherFault s .inval (effectiveAddress s rs1) = some o → invalFault s s.inputs.effMode = some f →
    (Config.combineDraw s.tick = true → Takes (.cboInval rs1) s (.fault o) (some (effectiveAddress s rs1))) ∧
    (Config.combineDraw s.tick = false → Takes (.cboInval rs1) s (.fault f) (some (effectiveAddress s rs1))) ∧
    ∃ k, (k = o ∨ k = f) ∧ Takes (.cboInval rs1) s (.fault k) (some (effectiveAddress s rs1))) ∧
  (∀ o f : MemFault, combine true (some o) (some f) = some o ∧ combine false (some o) (some f) = some f)

/-! ## Operation of `CBO.INVAL` -/

/-- R73, R74. A `CBO.INVAL` that is legal and faults nowhere performs an invalidate operation on its block exactly when the
"Invalidate" formula of the effective mode holds, and a flush operation otherwise. -/
def Obligations.InvalOperationExactlyByInvalidateBits : Prop :=
  ∀ (s : State) (rs1 : Reg), Legal s (.cboInval rs1) → NoOtherFault s (.cboInval rs1) → invalPasses s = true →
    (invalFormula s = true →
      exec (.cboInval rs1) s = .next (retire (cacheInval s (blockOf s (.cboInval rs1))))) ∧
    (invalFormula s = false →
      exec (.cboInval rs1) s = .next (retire (cacheFlush s (blockOf s (.cboInval rs1)))))

/-- R75 (e), R77 (d). When `CBO.INVAL` performs a flush it is indistinguishable from `CBO.FLUSH` on the same address; and
`CBO.FLUSH` does not fault where `CBO.INVAL` faults for want of an enable bit. -/
def Obligations.InvalThatFlushesIsCboFlush : Prop :=
  ∀ (s : State) (rs1 : Reg), Legal s (.cboInval rs1) → NoOtherFault s (.cboFlush rs1) →
    (NoOtherFault s (.cboInval rs1) → invalPasses s = true → invalFormula s = false →
      exec (.cboInval rs1) s = exec (.cboFlush rs1) s) ∧
    ∃ t, exec (.cboFlush rs1) s = .next t ∧ t.trap = none

/-- R109, first half. A level that clears both `INVWxE` bits of its CSR makes every legal `CBO.INVAL` trap, in every effective mode
that CSR governs, unless its page table is `Bare` (R72 gives a `Bare` table's CSR no fault). -/
def Obligations.ClearingEnableBitsMakesInvalTrap : Prop :=
  ∀ (s : State) (rs1 : Reg) (c : Csr), governs c s.inputs.effMode = true → mechanismBare s c = false →
    csrField s c .INVW0E = false → csrField s c .INVW1E = false → Legal s (.cboInval rs1) →
    ∃ f, Takes (.cboInval rs1) s (.fault f) (some (effectiveAddress s rs1))

/-- R109, second half. A level that clears both `INVWxI` bits of its CSR makes every `CBO.INVAL` that does not trap flush, in every
effective mode that CSR governs, and no read changes. -/
def Obligations.ClearingInvalidateBitsMakesInvalFlush : Prop :=
  ∀ (s : State) (rs1 : Reg) (c : Csr), s.Inv → governs c s.inputs.effMode = true →
    csrField s c .INVW0I = false → csrField s c .INVW1I = false →
    Legal s (.cboInval rs1) → NoOtherFault s (.cboInval rs1) → invalPasses s = true →
    exec (.cboInval rs1) s = .next (retire (cacheFlush s (blockOf s (.cboInval rs1)))) ∧
    ∀ t, exec (.cboInval rs1) s = .next t → ∀ a, readByte t a = readByte s a

/-- R81. Setting bits of any CSR never turns a legal instruction illegal, never turns a retiring `CBO.INVAL` into a trapping
one, and never turns an invalidate into a flush. -/
def Obligations.SettingBitsOnlyPermits : Prop :=
  ∀ (s : State) (csrs : PerCsr Word), (∀ c, s.csrs.get c &&& csrs.get c = s.csrs.get c) →
    (∀ i, Legal s i → Legal { s with csrs := csrs } i) ∧
    (∀ rs1 t, exec (.cboInval rs1) s = .next t → t.trap = none →
      ∃ t', exec (.cboInval rs1) { s with csrs := csrs } = .next t' ∧ t'.trap = none) ∧
    (invalOp s s.inputs.effMode = .invalidate → invalOp { s with csrs := csrs } s.inputs.effMode = .invalidate)

/-! ## What the instructions do: results, completion and frame -/

/-- `CBO.CLEAN` (reference cache model, D18, G8; assumption 5). A legal one with no other fault completes: memory holds the
latest data of the whole block, its copy stays and is not modified, and nothing else changes: no byte of memory outside the
block, no other copy, no byte a read returns, no register, no CSR; `pc + 4`. -/
def Obligations.CleanWritesTheBlockBackAndKeepsIt : Prop :=
  ∀ (s : State) (rs1 : Reg), s.Inv → Legal s (.cboClean rs1) → NoOtherFault s (.cboClean rs1) →
    ∃ t, exec (.cboClean rs1) s = .next t ∧ Retired s t ∧
      t.cache.find (blockOf s (.cboClean rs1)) =
        (s.cache.find (blockOf s (.cboClean rs1))).map (fun l => ⟨l.data, false⟩) ∧
      OtherCopiesKept s t (blockOf s (.cboClean rs1)) ∧
      (∀ a, InBlock s (blockOf s (.cboClean rs1)) a → t.mem.read a = readByte s a) ∧
      (∀ a, ¬ InBlock s (blockOf s (.cboClean rs1)) a → t.mem.read a = s.mem.read a) ∧
      ∀ a, readByte t a = readByte s a

/-- `CBO.FLUSH` (D18, G8; assumption 5). As `CBO.CLEAN`, and no copy of the block is left. -/
def Obligations.FlushWritesTheBlockBackAndDropsIt : Prop :=
  ∀ (s : State) (rs1 : Reg), s.Inv → Legal s (.cboFlush rs1) → NoOtherFault s (.cboFlush rs1) →
    ∃ t, exec (.cboFlush rs1) s = .next t ∧ Retired s t ∧
      t.cache.find (blockOf s (.cboFlush rs1)) = none ∧ OtherCopiesKept s t (blockOf s (.cboFlush rs1)) ∧
      (∀ a, InBlock s (blockOf s (.cboFlush rs1)) a → t.mem.read a = readByte s a) ∧
      (∀ a, ¬ InBlock s (blockOf s (.cboFlush rs1)) a → t.mem.read a = s.mem.read a) ∧
      ∀ a, readByte t a = readByte s a

/-- `CBO.INVAL` that invalidates (D18, G8; assumption 5): no byte of memory changes, the block has no copy left, a read of the
block returns memory's byte, every other read is as before. -/
def Obligations.InvalidateDropsTheBlockUnwritten : Prop :=
  ∀ (s : State) (rs1 : Reg), Legal s (.cboInval rs1) → NoOtherFault s (.cboInval rs1) → invalPasses s = true →
    invalFormula s = true →
    ∃ t, exec (.cboInval rs1) s = .next t ∧ Retired s t ∧ t.mem = s.mem ∧
      t.cache.find (blockOf s (.cboInval rs1)) = none ∧ OtherCopiesKept s t (blockOf s (.cboInval rs1)) ∧
      (∀ a, InBlock s (blockOf s (.cboInval rs1)) a → readByte t a = s.mem.read a) ∧
      ∀ a, ¬ InBlock s (blockOf s (.cboInval rs1)) a → readByte t a = readByte s a

/-- `CBO.ZERO` (D18, G10; assumption 5): every byte of the block that holds `ea` reads as zero, the bytes below `ea` too; every
other byte reads as before; the zeros are modified data in the cache and memory is not written yet. -/
def Obligations.ZeroWritesTheWholeBlock : Prop :=
  ∀ (s : State) (rs1 : Reg), s.Inv → Legal s (.cboZero rs1) → NoOtherFault s (.cboZero rs1) →
    ∃ t, exec (.cboZero rs1) s = .next t ∧ Retired s t ∧ t.mem = s.mem ∧
      t.cache.find (blockOf s (.cboZero rs1)) = some ⟨List.replicate (blockSize s.cfg) 0#8, true⟩ ∧
      OtherCopiesKept s t (blockOf s (.cboZero rs1)) ∧
      (∀ a, InBlock s (blockOf s (.cboZero rs1)) a → readByte t a = 0#8) ∧
      ∀ a, ¬ InBlock s (blockOf s (.cboZero rs1)) a → readByte t a = readByte s a

/-- R11, 93 Part 1. Every instruction in every state retires or takes one exception; nothing is stuck. A trapping one changes no
state, its `info` is `ea` for the three faults and empty for an illegal instruction; a retiring one does `pc + 4`. -/
def Obligations.EveryStepRetiresOrTraps : Prop :=
  ∀ (i : Instr) (s : State),
    ∃ t, exec i s = .next t ∧
      ((t.trap = none ∧ t.pc = s.cfg.xlen.trunc (s.pc + 4)) ∨
        t = { s with trap := some ⟨.illegalInstruction, none⟩ } ∨
        ∃ f, t = { s with trap := some ⟨.fault f, some (effectiveAddress s i.rs1)⟩ })

/-- R35. The only side effects of a CMO instruction are on caches and memory and the outcome (and the program counter): no flag,
no register, no CSR, no input changes. -/
def Obligations.SideEffectsAreOnCachesMemoryAndOutcome : Prop :=
  ∀ (i : Instr) (s t : State), exec i s = .next t →
    t = { s with mem := t.mem, cache := t.cache, pc := t.pc, trap := t.trap }

/-- D12, D8 (assumption 8). On retiring, the program counter is `pc + 4` modulo 2^XLEN, for both values of XLEN. -/
def Obligations.ProgramCounterAdvancesModuloXlen : Prop :=
  ∀ (i : Instr) (s t : State), exec i s = .next t → t.trap = none →
    t.pc.toNat = (s.pc.toNat + 4) % 2 ^ s.cfg.xlen.bits

/-- R78, D10. `ea` needs no alignment: two base registers whose addresses lie in one block give the same step, where no fault
records the address. -/
def Obligations.AddressesOfOneBlockNameOneOperation : Prop :=
  ∀ (s : State) (op : CmoOp) (r q : Reg), NoOtherFault s (op.instr r) → NoOtherFault s (op.instr q) →
    (op = .inval → invalPasses s = true) → blockOf s (op.instr r) = blockOf s (op.instr q) →
    exec (op.instr r) s = exec (op.instr q) s

/-- R76, R77, R86. The `INVW*` bits, the write permissions and the page tables' modes govern `CBO.INVAL` only: no other
instruction's step depends on them. -/
def Obligations.OnlyInvalReadsInvwBits : Prop :=
  ∀ (s : State) (i : Instr) (csrs : PerCsr Word) (granted : PerCsr Wx) (b1 b2 b3 : Bool), i.op ≠ .inval →
    (∀ c, fieldOf (csrs.get c) .CBME = fieldOf (s.csrs.get c) .CBME ∧
      fieldOf (csrs.get c) .CBWE = fieldOf (s.csrs.get c) .CBWE) →
    ∃ t, exec i s = .next t ∧
      exec i { s with
          csrs := csrs
          inputs := { s.inputs with granted := granted, satpBare := b1, hgatpBare := b2, vsatpBare := b3 } } =
        .next { t with
          csrs := csrs
          inputs := { s.inputs with granted := granted, satpBare := b1, hgatpBare := b2, vsatpBare := b3 } }

/-- R26, R40, R100. A step consults exactly the CSRs that govern its current and its effective mode: the others may hold
anything. -/
def Obligations.OnlyGoverningCsrsAreConsulted : Prop :=
  ∀ (s : State) (i : Instr) (csrs : PerCsr Word),
    (∀ c, governs c s.inputs.curMode = true ∨ governs c s.inputs.effMode = true → csrs.get c = s.csrs.get c) →
    ∃ t, exec i s = .next t ∧ exec i { s with csrs := csrs } = .next { t with csrs := csrs }

/-- R75 (f). Whether and how an instruction traps, and where the program counter goes, do not depend on what memory and the
cache hold. -/
def Obligations.OutcomeIgnoresMemoryAndCache : Prop :=
  ∀ (s : State) (i : Instr) (m : Memory) (k : Cache),
    ∃ t u, exec i s = .next t ∧ exec i { s with mem := m, cache := k } = .next u ∧ u.trap = t.trap ∧ u.pc = t.pc

/-- R69, D2 (V58, V59; assumption 18). Without S-mode `scmocontrol` is absent and its terms drop out: U-mode is governed by
`mcmocontrol` alone, for the illegality of all four instructions, for the fault of `CBO.INVAL` and for its operation. -/
def Obligations.AbsentScmocontrolDropsOut : Prop :=
  ∀ (s : State) (rs1 : Reg), s.cfg.cmoImplemented = true → s.cfg.haveS = false → s.inputs.curMode = .U →
    (∀ i : Instr, i.op ≠ .zero →
      (Takes i s .illegalInstruction none ↔ fieldOf s.csrs.mcmocontrol .CBME = false)) ∧
    (Takes (.cboZero rs1) s .illegalInstruction none ↔ fieldOf s.csrs.mcmocontrol .CBWE = false) ∧
    (s.inputs.effMode = .U → NoOtherFault s (.cboInval rs1) → fieldOf s.csrs.mcmocontrol .CBME = true →
      (selectedE s .mcmocontrol = false →
        Takes (.cboInval rs1) s (.fault .accessFault) (some (effectiveAddress s rs1))) ∧
      (selectedE s .mcmocontrol = true → machineI s = true →
        exec (.cboInval rs1) s = .next (retire (cacheInval s (blockOf s (.cboInval rs1))))) ∧
      (selectedE s .mcmocontrol = true → machineI s = false →
        exec (.cboInval rs1) s = .next (retire (cacheFlush s (blockOf s (.cboInval rs1))))))

/-! ## The laws of the cache operations -/

/-- R47. While a modified copy has not updated memory, a `CBO.INVAL` that invalidates may expose stale data: a read then returns
the byte memory holds; had the cache written the block back before, it returns the newer byte. Both are outcomes of the
model. The law is the source's, what a read returns the reference cache model's (assumption 5). -/
def Obligations.InvalidateMayExposeStaleData : Prop :=
  ∀ (s : State) (rs1 : Reg) (d : List Byte) (a : Nat), s.Inv → Legal s (.cboInval rs1) →
    NoOtherFault s (.cboInval rs1) → invalPasses s = true → invalFormula s = true →
    s.cache.find (blockOf s (.cboInval rs1)) = some ⟨d, true⟩ → InBlock s (blockOf s (.cboInval rs1)) a →
    (∃ t, exec (.cboInval rs1) s = .next t ∧ t.trap = none ∧ readByte t a = s.mem.read a) ∧
    (∃ t, exec (.cboInval rs1) (applyEvent s (.writeBack a)) = .next t ∧ t.trap = none ∧
      readByte t a = readByte s a)

/-- R48, over any spontaneous transitions of the cache before and between (R51; P1). Once a block has been cleaned or flushed, a
`CBO.INVAL` on it changes no byte that a read returns, in any mode and whatever the control registers say. -/
def Obligations.CleanOrFlushThenInvalidateLosesNothing : Prop :=
  ∀ (s t1 t3 : State) (before between : List Event) (i : Instr) (r q : Reg), s.Inv →
    before.all Event.spontaneous = true → between.all Event.spontaneous = true →
    (i = .cboClean r ∨ i = .cboFlush r) →
    exec i (applyEvents s before) = .next t1 → t1.trap = none →
    exec (.cboInval q) (applyEvents t1 between) = .next t3 → t3.trap = none →
    operandBlock s (effectiveAddress s r) = operandBlock s (effectiveAddress s q) →
    ∀ a, readByte t3 a = readByte s a

/-- R51. Spontaneous transitions, any number of them, change no byte that a read returns, and nothing but memory and the
cache. -/
def Obligations.SpontaneousTransitionsKeepEveryRead : Prop :=
  ∀ (s : State) (es : List Event), s.Inv → es.all Event.spontaneous = true →
    (∀ a, readByte (applyEvents s es) a = readByte s a) ∧
    applyEvents s es = { s with mem := (applyEvents s es).mem, cache := (applyEvents s es).cache }

/-- R52. After a store of the enclosing ISA every stored byte reads back and every other byte reads as before, across block
boundaries too. -/
def Obligations.StoreReadsBackAcrossBlocks : Prop :=
  ∀ (s : State) (pa : Nat) (bytes : List Byte) (a : Nat), s.Inv →
    readByte (memWrite s pa bytes) a =
      if pa ≤ a ∧ a < pa + bytes.length then bytes.getD (a - pa) 0#8 else readByte s a

/-- R85 (d), K12. The zeros of `CBO.ZERO` are modified data: an invalidate operation before any write back exposes the old
contents of memory. -/
def Obligations.ZeroThenInvalidateExposesOldMemory : Prop :=
  ∀ (s t u : State) (rs1 : Reg) (a : Nat), s.Inv → exec (.cboZero rs1) s = .next t → t.trap = none →
    exec (.cboInval rs1) t = .next u → u.trap = none → invalFormula t = true →
    InBlock s (blockOf s (.cboZero rs1)) a → readByte t a = 0#8 ∧ readByte u a = s.mem.read a

/-- R53 (d), (e). The three management operations are idempotent, and on a block with no modified copy none of them changes a
byte that a read returns. -/
def Obligations.ManagementOperationsAreIdempotent : Prop :=
  (∀ (s : State) (b : Nat), cacheInval (cacheInval s b) b = cacheInval s b ∧
    cacheClean (cacheClean s b) b = cacheClean s b ∧ cacheFlush (cacheFlush s b) b = cacheFlush s b) ∧
  (∀ (s : State) (b a : Nat), s.Inv → (∀ d, s.cache.find b ≠ some ⟨d, true⟩) →
    readByte (cacheInval s b) a = readByte s a ∧ readByte (cacheClean s b) a = readByte s a ∧
      readByte (cacheFlush s b) a = readByte s a)

/-- The safe alternative of 20_memory.md section 3 (`CacheModel.subBlock`; assumption 5). A partial write back puts exactly the chosen bytes of
a modified copy into memory and changes no read; so a later invalidate may expose any mixture of old and new bytes. -/
def Obligations.PartialWriteBackGivesPerByteDraws : Prop :=
  ∀ (s : State) (d : List Byte) (a : Nat) (offsets : List Nat), s.Inv → s.cfg.cacheModel = .subBlock →
    s.cache.find (blockBase s.cfg a) = some ⟨d, true⟩ →
    (∀ x, readByte (applyEvent s (.writeBackPart a offsets)) x = readByte s x) ∧
    (∀ o, o < blockSize s.cfg → (applyEvent s (.writeBackPart a offsets)).mem.read (blockBase s.cfg a + o) =
      if o ∈ offsets then readByte s (blockBase s.cfg a + o) else s.mem.read (blockBase s.cfg a + o)) ∧
    (applyEvent s (.writeBackPart a offsets)).cache = s.cache

/-- R43. Every byte address lies in exactly one naturally aligned block of `CBSIZE` bytes, and `blockBase` is its base. -/
def Obligations.EveryAddressLiesInOneBlock : Prop :=
  ∀ (c : Config) (a b : Nat),
    blockBase c a = b ↔ b % blockSize c = 0 ∧ b ≤ a ∧ a < b + blockSize c

/-! ## Control registers, general registers, exceptions -/

/-- R23, D3, D6. A CSR write leaves zero in every reserved bit, whatever the implementation's rule; by the default rule the six
defined fields are as written; no other CSR changes, and an absent one holds nothing. -/
def Obligations.CsrWriteIsLegalised : Prop :=
  ∀ (s : State) (c : Csr) (v : Word),
    (Csr.present s.cfg c = true → readCsr (writeCsr s c v) c &&& ~~~definedBits = 0) ∧
    (Csr.present s.cfg c = true → s.cfg.legal.get c = .mask definedBits →
      readCsr (writeCsr s c v) c = v &&& definedBits ∧ ∀ f, fieldOf (readCsr (writeCsr s c v) c) f = fieldOf v f) ∧
    (Csr.present s.cfg c = false → writeCsr s c v = s) ∧
    (∀ c', c' ≠ c → readCsr (writeCsr s c v) c' = readCsr s c') ∧
    writeCsr s c v = { s with csrs := (writeCsr s c v).csrs }

/-- R29, D5. By the default access rule M-mode reaches every CSR that is present, S/HS-mode every one but `mcmocontrol`, and no
other mode any. -/
def Obligations.DefaultCsrAccessByMode : Prop :=
  ∀ (c : Config) (r : Csr) (m : Mode), c.csrAccess = Config.defaultAccess →
    (csrAccessOk c r m = true ↔
      Csr.present c r = true ∧ (m = .M ∨ (m = .S ∧ r ≠ .mcmocontrol)))

/-- R28, R40, D4. Where the assigned CSR numbers differ, a number names its register; with redirection VS-mode's access to the
number of `scmocontrol` reaches `vscmocontrol`, and without it no access is redirected. -/
def Obligations.CsrNumbersNameTheirRegisters : Prop :=
  ∀ (c : Config) (r : Csr) (n : BitVec 12) (m : Mode), c.addrOk = true → c.addr.get r = some n →
    resolveCsr c m (.number n) =
      some (if c.vsRedirect = true ∧ m = .VS ∧ r = .scmocontrol then .vscmocontrol else r)

/-- R111, D19. A CSR write of the enclosing ISA that may reach its register is seen by the very next instruction. -/
def Obligations.CsrWriteIsSeenByTheNextInstruction : Prop :=
  ∀ (s : State) (c : Csr) (v : Word) (rest : List (List Event)) (i : Instr),
    s.pending = [.csrWrite (.named c) v] :: rest → csrAccessOk s.cfg c s.inputs.curMode = true →
    s.cfg.cmoImplemented = true → s.trap = none → modesPresent s = true →
    decodeEnc (boundary s).cfg.enc (fetchWord (boundary s)) = .ok i →
    step s = exec i (boundary s) ∧
      readCsr (boundary s) c =
        legalise (s.cfg.legal.get c) c (s.cfg.xlen.trunc (readCsr s c)) (s.cfg.xlen.trunc v)

/-- R23, R29, R39. A CSR read of the enclosing ISA that may reach its register puts the value the register holds, an XLEN-bit
value, into `rd`, and changes nothing else (nothing at all where `rd` is `x0`); a CSR write that may reach it is
`CsrWrite`; an access that may not changes nothing here (assumption 13). -/
def Obligations.CsrAccessesActWhereTheModeMay : Prop :=
  ∀ (s : State) (r : CsrRef) (rd q : Reg) (v : Word),
    (∀ c, accessibleCsr s r = some c ↔
      resolveCsr s.cfg s.inputs.curMode r = some c ∧ csrAccessOk s.cfg c s.inputs.curMode = true) ∧
    (∀ c, accessibleCsr s r = some c →
      (rd ≠ 0 → readReg (applyEvent s (.csrRead r rd)) rd = s.cfg.xlen.trunc (readCsr s c)) ∧
      applyEvent s (.csrWrite r v) = writeCsr s c v) ∧
    (q ≠ rd → readReg (applyEvent s (.csrRead r rd)) q = readReg s q) ∧
    applyEvent s (.csrRead r rd) = { s with regs := (applyEvent s (.csrRead r rd)).regs } ∧
    applyEvent s (.csrRead r 0) = s ∧
    (accessibleCsr s r = none → applyEvent s (.csrRead r rd) = s ∧ applyEvent s (.csrWrite r v) = s)

/-- R33, D28. `x[0]` reads zero and discards writes, so `rs1 = 0` names address 0; every other register reads back what was
written, modulo 2^XLEN, and leaves the others alone. -/
def Obligations.RegisterZeroIsHardwired : Prop :=
  ∀ (s : State) (r q : Reg) (v : Word),
    effectiveAddress s 0 = 0 ∧ writeReg s 0 v = s ∧
    (r ≠ 0 → readReg (writeReg s r v) r = s.cfg.xlen.trunc v) ∧
    (q ≠ r → readReg (writeReg s r v) q = readReg s q)

/-- R89, D13. The cause number of the trap that stands, by kind and `INVAL_FAULT_KIND`. -/
def Obligations.CauseNumbersByKindAndVariant : Prop :=
  ∀ (s : State) (info : Option Word),
    pendingCause (takeException s .illegalInstruction info) = some 2 ∧
    (s.cfg.invalFaultKind = .store →
      pendingCause (takeException s (.fault .accessFault) info) = some 7 ∧
      pendingCause (takeException s (.fault .pageFault) info) = some 15 ∧
      pendingCause (takeException s (.fault .guestPageFault) info) = some 23) ∧
    (s.cfg.invalFaultKind = .load →
      pendingCause (takeException s (.fault .accessFault) info) = some 5 ∧
      pendingCause (takeException s (.fault .pageFault) info) = some 13 ∧
      pendingCause (takeException s (.fault .guestPageFault) info) = some 21)

/-- R39, R101. No step of any instruction, no mode change, no trap and no transition of the cache writes a CSR or a general
register: the CSRs change in a step only where an access before it wrote one, the general registers only where the enclosing
ISA wrote one. -/
def Obligations.OnlyAccessesChangeRegisters : Prop :=
  ∀ s t : State, step s = .next t →
    ((s.pending.headD []).all (fun e => !e.writesCsr) = true → t.csrs = s.csrs) ∧
    ((s.pending.headD []).all (fun e => !e.writesReg) = true → t.regs = s.regs)

/-- R97. The CSRs are not saved, stacked or restored by a trap: when the enclosing model takes the trap that an instruction left,
the CSRs, the general registers, memory and the cache are those the trapping instruction ran under. -/
def Obligations.TrapKeepsTheControlRegisters : Prop :=
  ∀ (i : Instr) (s t : State), exec i s = .next t → t.trap ≠ none →
    applyEvent t .takeTrap = { s with trap := none }

/-! ## Reset and invariants -/

/-- R37, D7. At launch a present CSR holds its `RESET_c`, whatever that is, and an absent one nothing; the values of
`State.reset` are the model's choice (assumptions 1 to 4). -/
def Obligations.LaunchHoldsTheResetValues : Prop :=
  (∀ (c : Config) (r : Csr),
    readCsr (State.launch c) r = if Csr.present c r = true then c.resetValue.get r else 0) ∧
  (∀ (c : Config) (i : Instr), NoOtherFault (State.launch c) i ∧ Legal (State.launch c) i) ∧
  State.reset = State.launch Config.atReset

/-- The state after reset is legal, in every well-formed configuration. -/
def Obligations.LaunchIsLegal : Prop :=
  State.reset.Inv ∧ ∀ c : Config, c.wf = true → (State.launch c).Inv

/-- Every step from a legal state gives a legal state: memory and cache stay in canonical form, an unmodified copy equals memory
(R50), reserved CSR bits stay zero (R23 (a)), `x[0]` stays zero, every register stays XLEN bits wide, and the modes stay modes
the configuration has. -/
def Obligations.StepKeepsTheStateLegal : Prop :=
  ∀ s t : State, s.Inv → step s = .next t → t.Inv

/-- D1, D24: the implementation's parameters are static. No step changes them. -/
def Obligations.ParametersNeverChange : Prop :=
  ∀ s t : State, step s = .next t → t.cfg = s.cfg
end

