-- ==== Sys2Proof/Laws/Memory.lean ====
section
/-! SUPPORT. Memory: read after write, and the canonical form. -/

namespace Sys2Proof.Machine

/-- Every listed address is greater than `a`. -/
abbrev Above (a : Nat) (m : Memory) : Prop := ∀ c ∈ m, a < c.1

@[simp] theorem read_nil (a : Nat) : Memory.read [] a = unlistedByte := rfl

theorem read_above {m : Memory} {a : Nat} (h : Above a m) : m.read a = unlistedByte := by
  induction m with
  | nil => rfl
  | cons c m ih =>
    obtain ⟨k, w⟩ := c
    have hk : a < k := h (k, w) (by simp)
    have ht : Above a m := fun c hc => h c (by simp [hc])
    simp [Memory.read, Nat.ne_of_gt hk, ih ht]

theorem read_consCell_same {m : Memory} {a : Nat} {v : Byte} (h : Above a m) :
    Memory.read (consCell a v m) a = v := by
  unfold consCell
  split
  · rw [read_above h, ‹v = unlistedByte›]
  · simp [Memory.read]

theorem read_consCell_other {m : Memory} {a b : Nat} {v : Byte} (h : b ≠ a) :
    Memory.read (consCell a v m) b = m.read b := by
  unfold consCell
  split
  · rfl
  · simp [Memory.read, Ne.symm h]

theorem above_of_sorted {k : Nat} {w : Byte} {m : Memory}
    (h : List.Pairwise (fun x y : Nat × Byte => x.1 < y.1) ((k, w) :: m)) : Above k m :=
  fun c hc => (List.pairwise_cons.1 h).1 c hc

/-- A byte just written reads back. -/
theorem read_write_same {m : Memory} (h : m.wf) (a : Nat) (v : Byte) : (m.write a v).read a = v := by
  obtain ⟨hs, -⟩ := h
  induction m with
  | nil => exact read_consCell_same (by simp)
  | cons c m ih =>
    obtain ⟨k, w⟩ := c
    have htail := (List.pairwise_cons.1 hs).2
    have habove := above_of_sorted hs
    simp only [Memory.write]
    split
    · have hne : k ≠ a := by omega
      simp [Memory.read, hne, ih htail]
    · split
      · subst k
        exact read_consCell_same habove
      · refine read_consCell_same fun c hc => ?_
        rcases List.mem_cons.1 hc with rfl | hc
        · simp only; omega
        · have := habove c hc; omega

/-- A write leaves every other address alone. -/
theorem read_write_other (m : Memory) {a b : Nat} (v : Byte) (h : b ≠ a) : (m.write a v).read b = m.read b := by
  induction m with
  | nil => simp [Memory.write, read_consCell_other h]
  | cons c m ih =>
    obtain ⟨k, w⟩ := c
    simp only [Memory.write]
    split
    · by_cases hk : k = b <;> simp [Memory.read, hk, ih]
    · split
      · subst k
        simp [read_consCell_other h, Memory.read, Ne.symm h]
      · exact read_consCell_other h

theorem consCell_above {m : Memory} {a k : Nat} {v : Byte} (hk : k < a) (h : Above k m) :
    Above k (consCell a v m) := by
  unfold consCell
  split
  · exact h
  · intro c hc
    rcases List.mem_cons.1 hc with rfl | hc
    · exact hk
    · exact h c hc

theorem write_above {m : Memory} {a k : Nat} {v : Byte} (hk : k < a) (h : Above k m) :
    Above k (m.write a v) := by
  induction m with
  | nil => exact consCell_above hk h
  | cons c m ih =>
    obtain ⟨j, w⟩ := c
    have hj : k < j := h (j, w) (by simp)
    have ht : Above k m := fun c hc => h c (by simp [hc])
    simp only [Memory.write]
    split
    · intro c hc
      rcases List.mem_cons.1 hc with rfl | hc
      · exact hj
      · exact ih ht c hc
    · split
      · exact consCell_above hk ht
      · exact consCell_above hk h

theorem consCell_wf {m : Memory} {a : Nat} {v : Byte} (h : m.wf) (ha : Above a m) :
    Memory.wf (consCell a v m) := by
  unfold consCell
  split
  · exact h
  · rename_i hv
    refine ⟨List.pairwise_cons.2 ⟨fun c hc => ha c hc, h.1⟩, fun c hc => ?_⟩
    rcases List.mem_cons.1 hc with rfl | hc
    · exact hv
    · exact h.2 c hc

/-- A write keeps the canonical form. -/
theorem write_wf {m : Memory} (h : m.wf) (a : Nat) (v : Byte) : (m.write a v).wf := by
  induction m with
  | nil => exact consCell_wf h (by simp)
  | cons c m ih =>
    obtain ⟨k, w⟩ := c
    have htail : Memory.wf m := ⟨(List.pairwise_cons.1 h.1).2, fun c hc => h.2 c (by simp [hc])⟩
    have habove := above_of_sorted h.1
    simp only [Memory.write]
    split
    · rename_i hk
      refine ⟨List.pairwise_cons.2 ⟨fun c hc => write_above hk habove c hc, (ih htail).1⟩, fun c hc => ?_⟩
      rcases List.mem_cons.1 hc with rfl | hc
      · exact h.2 _ (by simp)
      · exact (ih htail).2 c hc
    · split
      · subst k
        exact consCell_wf htail habove
      · refine consCell_wf h fun c hc => ?_
        rcases List.mem_cons.1 hc with rfl | hc
        · simp only; omega
        · have := habove c hc; omega

theorem writeBytes_wf {m : Memory} (h : m.wf) (a : Nat) (vs : List Byte) : (m.writeBytes a vs).wf := by
  induction vs generalizing m a with
  | nil => exact h
  | cons v vs ih => exact ih (write_wf h a v) (a + 1)

/-- Writing bytes leaves every address outside them alone. -/
theorem read_writeBytes_outside (m : Memory) {a b : Nat} (vs : List Byte) (h : b < a ∨ a + vs.length ≤ b) :
    (m.writeBytes a vs).read b = m.read b := by
  induction vs generalizing m a with
  | nil => rfl
  | cons v vs ih =>
    simp only [List.length_cons] at h
    simp only [Memory.writeBytes]
    rw [ih _ (by omega), read_write_other _ _ (by omega)]

/-- Bytes just written read back. -/
theorem read_writeBytes_inside {m : Memory} (h : m.wf) (a : Nat) (vs : List Byte) {i : Nat} (hi : i < vs.length) :
    (m.writeBytes a vs).read (a + i) = vs[i] := by
  induction vs generalizing m a i with
  | nil => simp at hi
  | cons v vs ih =>
    simp only [Memory.writeBytes]
    cases i with
    | zero =>
      rw [read_writeBytes_outside _ _ (by omega)]
      exact read_write_same h a v
    | succ i =>
      have := ih (write_wf h a v) (a + 1) (i := i) (by simpa using hi)
      rw [show a + (i + 1) = a + 1 + i by omega, this]
      rfl

@[simp] theorem length_readBytes (m : Memory) (a n : Nat) : (m.readBytes a n).length = n := by
  simp [Memory.readBytes]

theorem getElem_readBytes (m : Memory) (a n i : Nat) (h : i < (m.readBytes a n).length) :
    (m.readBytes a n)[i] = m.read (a + i) := by
  simp [Memory.readBytes]

/-- Two memories that agree on a range read the same bytes there. -/
theorem readBytes_congr {m m' : Memory} {a n : Nat} (h : ∀ i < n, m'.read (a + i) = m.read (a + i)) :
    m'.readBytes a n = m.readBytes a n := by
  refine List.map_congr_left fun i hi => h i (by simpa using hi)

/-- The bytes just written are the bytes read. -/
theorem readBytes_writeBytes_same {m : Memory} (h : m.wf) (a : Nat) (vs : List Byte) :
    (m.writeBytes a vs).readBytes a vs.length = vs := by
  refine List.ext_getElem (by simp) fun i _ hi => ?_
  rw [getElem_readBytes, read_writeBytes_inside h a vs hi]

theorem writeOffsets_wf {m : Memory} (h : m.wf) (b : Nat) (d : List Byte) (os : List Nat) :
    (writeOffsets m b d os).wf := by
  induction os generalizing m with
  | nil => exact h
  | cons o os ih =>
    simp only [writeOffsets]
    split
    · exact ih (write_wf h _ _)
    · exact ih h

theorem read_writeOffsets_outside (m : Memory) {a b : Nat} (d : List Byte) (os : List Nat)
    (h : a < b ∨ b + d.length ≤ a) : (writeOffsets m b d os).read a = m.read a := by
  induction os generalizing m with
  | nil => rfl
  | cons o os ih =>
    simp only [writeOffsets]
    split
    · rename_i v hv
      have ho : o < d.length := (List.getElem?_eq_some_iff.1 hv).1
      rw [ih, read_write_other _ _ (by omega)]
    · exact ih m

end Sys2Proof.Machine
end

