-- ==== Sys2Proof/Laws/Cache.lean ====
section
/-! SUPPORT. The cache as a list of blocks, and block arithmetic (20_memory.md R43). -/

namespace Sys2Proof.Machine

/-! ## Blocks -/

theorem blockSize_pos (c : Config) : 0 < blockSize c := Nat.two_pow_pos _

/-- A block base is a multiple of `CBSIZE`. -/
theorem blockBase_aligned (c : Config) (a : Nat) : blockBase c a % blockSize c = 0 := by
  have h := Nat.div_add_mod a (blockSize c)
  have : blockBase c a = blockSize c * (a / blockSize c) := by unfold blockBase; omega
  rw [this, Nat.mul_mod_right]

theorem blockBase_le (c : Config) (a : Nat) : blockBase c a ≤ a := Nat.sub_le _ _

theorem lt_blockBase_add (c : Config) (a : Nat) : a < blockBase c a + blockSize c := by
  have := Nat.mod_lt a (blockSize_pos c)
  have := Nat.mod_le a (blockSize c)
  unfold blockBase
  omega

/-- The block of every address in the block at an aligned base is that block. -/
theorem blockBase_of_mem {c : Config} {a b : Nat} (hb : b % blockSize c = 0) (h1 : b ≤ a)
    (h2 : a < b + blockSize c) : blockBase c a = b := by
  have hmod : a % blockSize c = a - b := by
    conv_lhs => rw [show a = (a - b) + b by omega, Nat.add_mod, hb, Nat.add_zero, Nat.mod_mod]
    exact Nat.mod_eq_of_lt (by omega)
  unfold blockBase
  omega

/-- An address lies in the block at an aligned base exactly when that is its block's base. -/
theorem blockBase_eq_iff {c : Config} {a b : Nat} (hb : b % blockSize c = 0) :
    blockBase c a = b ↔ b ≤ a ∧ a < b + blockSize c := by
  constructor
  · rintro rfl
    exact ⟨blockBase_le c a, lt_blockBase_add c a⟩
  · rintro ⟨h1, h2⟩
    exact blockBase_of_mem hb h1 h2

/-- Blocks at different bases share no address. -/
theorem blocks_disjoint {c : Config} {b b' a : Nat} (hb : b % blockSize c = 0) (hb' : b' % blockSize c = 0)
    (hne : b ≠ b') (h : b ≤ a ∧ a < b + blockSize c) : a < b' ∨ b' + blockSize c ≤ a := by
  by_contra hc
  have h1 := blockBase_of_mem hb h.1 h.2
  have h2 := blockBase_of_mem (c := c) (a := a) hb' (by omega) (by omega)
  exact hne (h1.symm.trans h2)

/-! ## The list of cached copies -/

abbrev CacheSorted (k : Cache) : Prop := k.Pairwise (fun x y => x.1 < y.1)

@[simp] theorem find_nil (b : Nat) : Cache.find [] b = none := rfl

theorem find_put_same (k : Cache) (b : Nat) (l : Line) : (k.put b l).find b = some l := by
  induction k with
  | nil => simp [Cache.put, Cache.find]
  | cons e k ih =>
    obtain ⟨j, x⟩ := e
    simp only [Cache.put]
    split
    · have : j ≠ b := by omega
      simp [Cache.find, this, ih]
    · split <;> simp [Cache.find]

theorem find_put_other (k : Cache) {a b : Nat} (l : Line) (h : b ≠ a) : (k.put a l).find b = k.find b := by
  induction k with
  | nil => simp [Cache.put, Cache.find, Ne.symm h]
  | cons e k ih =>
    obtain ⟨j, x⟩ := e
    simp only [Cache.put]
    split
    · simp [Cache.find, ih]
    · split
      · subst j
        simp [Cache.find, Ne.symm h]
      · simp [Cache.find, Ne.symm h]

@[simp] theorem find_drop_same (k : Cache) (b : Nat) : (k.drop b).find b = none := by
  induction k with
  | nil => rfl
  | cons e k ih =>
    obtain ⟨j, x⟩ := e
    by_cases h : j = b <;> simp [Cache.drop, Cache.find, h, ih]

theorem find_drop_other (k : Cache) {a b : Nat} (h : b ≠ a) : (k.drop a).find b = k.find b := by
  induction k with
  | nil => rfl
  | cons e k ih =>
    obtain ⟨j, x⟩ := e
    by_cases hj : j = a
    · subst j
      simp [Cache.drop, Cache.find, Ne.symm h, ih]
    · simp [Cache.drop, Cache.find, hj, ih]

/-- A copy found is one the list holds. -/
theorem mem_of_find {k : Cache} {b : Nat} {l : Line} (h : k.find b = some l) : (b, l) ∈ k := by
  induction k with
  | nil => simp at h
  | cons e k ih =>
    obtain ⟨j, x⟩ := e
    simp only [Cache.find] at h
    split at h
    · cases h
      subst j
      simp
    · exact List.mem_cons_of_mem _ (ih h)

theorem mem_put {k : Cache} {b : Nat} {l : Line} {e : Nat × Line} (h : e ∈ k.put b l) : e = (b, l) ∨ e ∈ k := by
  induction k with
  | nil => simpa [Cache.put] using h
  | cons x k ih =>
    obtain ⟨j, x⟩ := x
    simp only [Cache.put] at h
    split at h
    · rcases List.mem_cons.1 h with rfl | h
      · exact .inr (by simp)
      · rcases ih h with h | h
        · exact .inl h
        · exact .inr (by simp [h])
    · split at h
      · rcases List.mem_cons.1 h with rfl | h
        · exact .inl rfl
        · exact .inr (by simp [h])
      · rcases List.mem_cons.1 h with rfl | h
        · exact .inl rfl
        · exact .inr h

theorem mem_of_mem_drop {k : Cache} {b : Nat} {e : Nat × Line} (h : e ∈ k.drop b) : e ∈ k ∧ e.1 ≠ b := by
  induction k with
  | nil => simp [Cache.drop] at h
  | cons x k ih =>
    obtain ⟨j, x⟩ := x
    simp only [Cache.drop] at h
    split at h
    · exact ⟨by simp [(ih h).1], (ih h).2⟩
    · rcases List.mem_cons.1 h with rfl | h
      · exact ⟨by simp, by assumption⟩
      · exact ⟨by simp [(ih h).1], (ih h).2⟩

theorem put_sorted {k : Cache} (h : CacheSorted k) (b : Nat) (l : Line) : CacheSorted (k.put b l) := by
  induction k with
  | nil => simp [Cache.put]
  | cons x k ih =>
    obtain ⟨j, x⟩ := x
    obtain ⟨hj, ht⟩ := List.pairwise_cons.1 h
    simp only [Cache.put]
    split
    · rename_i hlt
      refine List.pairwise_cons.2 ⟨fun e he => ?_, ih ht⟩
      rcases mem_put he with rfl | he
      · exact hlt
      · exact hj e he
    · split
      · subst j
        exact List.pairwise_cons.2 ⟨hj, ht⟩
      · refine List.pairwise_cons.2 ⟨fun e he => ?_, h⟩
        rcases List.mem_cons.1 he with rfl | he
        · simp only; omega
        · have := hj e he
          simp only at this ⊢; omega

theorem drop_sorted {k : Cache} (h : CacheSorted k) (b : Nat) : CacheSorted (k.drop b) := by
  induction k with
  | nil => simp [Cache.drop]
  | cons x k ih =>
    obtain ⟨j, x⟩ := x
    obtain ⟨hj, ht⟩ := List.pairwise_cons.1 h
    simp only [Cache.drop]
    split
    · exact ih ht
    · exact List.pairwise_cons.2 ⟨fun e he => hj e (mem_of_mem_drop he).1, ih ht⟩

theorem find_of_mem {k : Cache} (h : CacheSorted k) {e : Nat × Line} (he : e ∈ k) : k.find e.1 = some e.2 := by
  induction k with
  | nil => simp at he
  | cons x k ih =>
    obtain ⟨j, x⟩ := x
    obtain ⟨hj, ht⟩ := List.pairwise_cons.1 h
    rcases List.mem_cons.1 he with rfl | he
    · simp [Cache.find]
    · have : j ≠ e.1 := by have := hj e he; simp only at this; omega
      simp [Cache.find, this, ih ht he]

/-- In a sorted cache every copy but the one just put stands where it stood. -/
theorem mem_put_sorted {k : Cache} (h : CacheSorted k) {b : Nat} {l : Line} {e : Nat × Line} (he : e ∈ k.put b l) :
    e = (b, l) ∨ (e ∈ k ∧ e.1 ≠ b) := by
  rcases mem_put he with rfl | hk
  · exact .inl rfl
  · by_cases hb : e.1 = b
    · have h1 := find_of_mem (put_sorted h b l) he
      rw [hb, find_put_same] at h1
      obtain ⟨j, x⟩ := e
      simp only [Option.some.injEq] at h1 hb
      subst hb h1
      exact .inl rfl
    · exact .inr ⟨hk, hb⟩

/-! ## The legal form of the cache -/

/-- A copy found in a legal cache is a legal copy. -/
theorem lineOk_of_find {c : Config} {m : Memory} {k : Cache} (h : k.wf c m) {b : Nat} {l : Line}
    (hf : k.find b = some l) : lineOk c m (b, l) := h.2 _ (mem_of_find hf)

theorem drop_wf {c : Config} {m : Memory} {k : Cache} (h : k.wf c m) (b : Nat) : (k.drop b).wf c m :=
  ⟨drop_sorted h.1 b, fun e he => h.2 e (mem_of_mem_drop he).1⟩

/-- A legal copy put into a legal cache, with memory changed at most inside that copy's block. -/
theorem put_wf {c : Config} {m m' : Memory} {k : Cache} (h : k.wf c m) {b : Nat} {l : Line}
    (hl : lineOk c m' (b, l)) (hout : ∀ a, a < b ∨ b + blockSize c ≤ a → m'.read a = m.read a) :
    (k.put b l).wf c m' := by
  refine ⟨put_sorted h.1 b l, fun e he => ?_⟩
  rcases mem_put_sorted h.1 he with rfl | ⟨hk, hne⟩
  · exact hl
  · obtain ⟨ha, hlen, hclean⟩ := h.2 e hk
    refine ⟨ha, hlen, fun hm => ?_⟩
    rw [hclean hm]
    refine (readBytes_congr fun i hi => hout _ ?_).symm
    exact blocks_disjoint ha hl.1 hne ⟨by omega, by omega⟩

/-- Memory changed inside the block of a modified copy leaves the cache legal. -/
theorem wf_of_modified {c : Config} {m m' : Memory} {k : Cache} (h : k.wf c m) {b : Nat} {d : List Byte}
    (hf : k.find b = some ⟨d, true⟩) (hout : ∀ a, a < b ∨ b + blockSize c ≤ a → m'.read a = m.read a) : k.wf c m' := by
  refine ⟨h.1, fun e he => ?_⟩
  obtain ⟨ha, hlen, hclean⟩ := h.2 e he
  refine ⟨ha, hlen, fun hm => ?_⟩
  have hne : e.1 ≠ b := by
    intro hb
    have := find_of_mem h.1 he
    rw [hb, hf, Option.some.injEq] at this
    rw [← this] at hm
    simp at hm
  rw [hclean hm]
  exact (readBytes_congr fun i hi =>
    hout _ (blocks_disjoint ha (lineOk_of_find h hf).1 hne ⟨by omega, by omega⟩)).symm

end Sys2Proof.Machine
end

