-- ==== Sys2Proof/Laws/Decode.lean ====
section
/-! SUPPORT. What it takes for a word to decode to an instruction: each field at its value. -/

namespace Sys2Proof

@[simp] theorem op_instr (op : CmoOp) (r : Reg) : (op.instr r).op = op := by cases op <;> rfl

@[simp] theorem rs1_instr (op : CmoOp) (r : Reg) : (op.instr r).rs1 = r := by cases op <;> rfl

@[simp] theorem instr_op_rs1 (i : Instr) : i.op.instr i.rs1 = i := by cases i <;> rfl

/-- An `imm12` selects an operation exactly when it is the operation's number. -/
theorem opOfImm12_eq_some_iff (imm : BitVec 12) (op : CmoOp) : opOfImm12 imm = some op ↔ imm = imm12Of op := by
  unfold opOfImm12
  constructor
  · intro h
    split_ifs at h <;> simp_all [← Option.some.inj h, imm12Of]
  · rintro rfl
    cases op <;> decide

/-- A word decodes to an instruction exactly when every field holds that instruction's value. -/
theorem decodeWord_eq_ok_iff (w : BitVec 32) (i : Instr) :
    decodeWord w = .ok i ↔
      fieldOpcode w = opcodeMiscMem ∧ fieldFunct3 w = funct3Cbo ∧ fieldRd w = 0#5 ∧
        fieldImm12 w = imm12Of i.op ∧ regOfBits (fieldRs1 w) = i.rs1 := by
  rw [← opOfImm12_eq_some_iff]
  unfold decodeWord
  by_cases h1 : fieldOpcode w = opcodeMiscMem <;> by_cases h2 : fieldFunct3 w = funct3Cbo <;>
    by_cases h3 : fieldRd w = 0#5 <;> simp only [h1, h2, h3, if_true, if_false, reduceCtorEq, true_and, false_and]
  cases ho : opOfImm12 (fieldImm12 w) with
  | none => simp
  | some op =>
    simp only [Except.ok.injEq, Option.some.injEq]
    constructor
    · rintro rfl
      simp
    · rintro ⟨rfl, h⟩
      rw [h, instr_op_rs1]

/-! ## `ENC` -/

@[simp] theorem decodeEnc_default (w : BitVec 32) : decodeEnc .default w = decodeWord w := rfl

/-- A row reads an instruction from a word exactly when the word matches it, and then the row's own. -/
theorem read_eq_some_iff (r : EncRow) (w : BitVec 32) (i : Instr) :
    r.read w = some i ↔ w &&& r.mask = r.pattern ∧ i = r.op.instr (regOfBits (w.extractLsb' r.rs1Low 5)) := by
  unfold EncRow.read
  split
  · rename_i h
    simp [h, eq_comm]
  · rename_i h
    simp [h]

/-- A table maps a word to the instruction of its first row that matches. -/
theorem decodeEnc_table_eq_ok_iff (rows : List EncRow) (w : BitVec 32) (i : Instr) :
    decodeEnc (.table rows) w = .ok i ↔ rows.findSome? (fun r => r.read w) = some i := by
  simp only [decodeEnc]
  cases rows.findSome? fun r => r.read w <;> simp

theorem decodeEnc_implementation_eq_ok_iff (w : BitVec 32) (i : Instr) :
    decodeEnc .implementation w = .ok i ↔ Config.freeEnc w = some i := by
  simp only [decodeEnc]
  cases Config.freeEnc w <;> simp

/-- Two rows that are apart do not match one word. -/
theorem not_match_of_apart {r q : EncRow} (h : r.apart q = true) {w : BitVec 32} (hr : w &&& r.mask = r.pattern) :
    w &&& q.mask ≠ q.pattern := by
  intro hq
  unfold EncRow.apart at h
  rw [← hr, ← hq] at h
  refine absurd ?_ (by simpa using h)
  ext i
  simp
  grind

end Sys2Proof
end

