-- ==== Sys2Proof/Laws/State.lean ====
section
/-! SUPPORT. What each named operation leaves as it was, one lemma per field per operation, and what it writes. -/

namespace Sys2Proof.Machine

/-! ## `retire` -/

@[simp] theorem retire_cfg (s : State) : (retire s).cfg = s.cfg := rfl
@[simp] theorem retire_csrs (s : State) : (retire s).csrs = s.csrs := rfl
@[simp] theorem retire_regs (s : State) : (retire s).regs = s.regs := rfl
@[simp] theorem retire_mem (s : State) : (retire s).mem = s.mem := rfl
@[simp] theorem retire_cache (s : State) : (retire s).cache = s.cache := rfl
@[simp] theorem retire_inputs (s : State) : (retire s).inputs = s.inputs := rfl
@[simp] theorem retire_tick (s : State) : (retire s).tick = s.tick := rfl
@[simp] theorem retire_pending (s : State) : (retire s).pending = s.pending := rfl
@[simp] theorem retire_pc (s : State) : (retire s).pc = s.cfg.xlen.trunc (s.pc + 4) := rfl
@[simp] theorem retire_trap (s : State) : (retire s).trap = none := rfl

/-! ## `takeException` -/

@[simp] theorem takeException_cfg (s : State) (k : ExcKind) (i : Option Word) : (takeException s k i).cfg = s.cfg := rfl
@[simp] theorem takeException_csrs (s : State) (k : ExcKind) (i : Option Word) : (takeException s k i).csrs = s.csrs := rfl
@[simp] theorem takeException_regs (s : State) (k : ExcKind) (i : Option Word) : (takeException s k i).regs = s.regs := rfl
@[simp] theorem takeException_pc (s : State) (k : ExcKind) (i : Option Word) : (takeException s k i).pc = s.pc := rfl
@[simp] theorem takeException_mem (s : State) (k : ExcKind) (i : Option Word) : (takeException s k i).mem = s.mem := rfl
@[simp] theorem takeException_cache (s : State) (k : ExcKind) (i : Option Word) : (takeException s k i).cache = s.cache := rfl
@[simp] theorem takeException_inputs (s : State) (k : ExcKind) (i : Option Word) : (takeException s k i).inputs = s.inputs := rfl
@[simp] theorem takeException_tick (s : State) (k : ExcKind) (i : Option Word) : (takeException s k i).tick = s.tick := rfl
@[simp] theorem takeException_pending (s : State) (k : ExcKind) (i : Option Word) : (takeException s k i).pending = s.pending := rfl
@[simp] theorem takeException_trap (s : State) (k : ExcKind) (i : Option Word) : (takeException s k i).trap = some ⟨k, i⟩ := rfl

/-! ## `trapTaken` -/

@[simp] theorem trapTaken_cfg (s : State) : (trapTaken s).cfg = s.cfg := rfl
@[simp] theorem trapTaken_csrs (s : State) : (trapTaken s).csrs = s.csrs := rfl
@[simp] theorem trapTaken_regs (s : State) : (trapTaken s).regs = s.regs := rfl
@[simp] theorem trapTaken_pc (s : State) : (trapTaken s).pc = s.pc := rfl
@[simp] theorem trapTaken_mem (s : State) : (trapTaken s).mem = s.mem := rfl
@[simp] theorem trapTaken_cache (s : State) : (trapTaken s).cache = s.cache := rfl
@[simp] theorem trapTaken_inputs (s : State) : (trapTaken s).inputs = s.inputs := rfl
@[simp] theorem trapTaken_tick (s : State) : (trapTaken s).tick = s.tick := rfl
@[simp] theorem trapTaken_pending (s : State) : (trapTaken s).pending = s.pending := rfl
@[simp] theorem trapTaken_trap (s : State) : (trapTaken s).trap = none := rfl

/-! ## `writePc` -/

@[simp] theorem writePc_cfg (s : State) (v : Word) : (writePc s v).cfg = s.cfg := rfl
@[simp] theorem writePc_csrs (s : State) (v : Word) : (writePc s v).csrs = s.csrs := rfl
@[simp] theorem writePc_regs (s : State) (v : Word) : (writePc s v).regs = s.regs := rfl
@[simp] theorem writePc_mem (s : State) (v : Word) : (writePc s v).mem = s.mem := rfl
@[simp] theorem writePc_cache (s : State) (v : Word) : (writePc s v).cache = s.cache := rfl
@[simp] theorem writePc_inputs (s : State) (v : Word) : (writePc s v).inputs = s.inputs := rfl
@[simp] theorem writePc_trap (s : State) (v : Word) : (writePc s v).trap = s.trap := rfl
@[simp] theorem writePc_tick (s : State) (v : Word) : (writePc s v).tick = s.tick := rfl
@[simp] theorem writePc_pending (s : State) (v : Word) : (writePc s v).pending = s.pending := rfl
@[simp] theorem writePc_pc (s : State) (v : Word) : (writePc s v).pc = s.cfg.xlen.trunc v := rfl

/-! ## `writeReg` -/

@[simp] theorem writeReg_cfg (s : State) (r : Reg) (v : Word) : (writeReg s r v).cfg = s.cfg := by unfold writeReg; split <;> rfl
@[simp] theorem writeReg_csrs (s : State) (r : Reg) (v : Word) : (writeReg s r v).csrs = s.csrs := by unfold writeReg; split <;> rfl
@[simp] theorem writeReg_pc (s : State) (r : Reg) (v : Word) : (writeReg s r v).pc = s.pc := by unfold writeReg; split <;> rfl
@[simp] theorem writeReg_mem (s : State) (r : Reg) (v : Word) : (writeReg s r v).mem = s.mem := by unfold writeReg; split <;> rfl
@[simp] theorem writeReg_cache (s : State) (r : Reg) (v : Word) : (writeReg s r v).cache = s.cache := by unfold writeReg; split <;> rfl
@[simp] theorem writeReg_inputs (s : State) (r : Reg) (v : Word) : (writeReg s r v).inputs = s.inputs := by unfold writeReg; split <;> rfl
@[simp] theorem writeReg_trap (s : State) (r : Reg) (v : Word) : (writeReg s r v).trap = s.trap := by unfold writeReg; split <;> rfl
@[simp] theorem writeReg_tick (s : State) (r : Reg) (v : Word) : (writeReg s r v).tick = s.tick := by unfold writeReg; split <;> rfl
@[simp] theorem writeReg_pending (s : State) (r : Reg) (v : Word) : (writeReg s r v).pending = s.pending := by unfold writeReg; split <;> rfl

/-! ## `writeCsr` -/

@[simp] theorem writeCsr_cfg (s : State) (c : Csr) (v : Word) : (writeCsr s c v).cfg = s.cfg := by unfold writeCsr; split <;> rfl
@[simp] theorem writeCsr_regs (s : State) (c : Csr) (v : Word) : (writeCsr s c v).regs = s.regs := by unfold writeCsr; split <;> rfl
@[simp] theorem writeCsr_pc (s : State) (c : Csr) (v : Word) : (writeCsr s c v).pc = s.pc := by unfold writeCsr; split <;> rfl
@[simp] theorem writeCsr_mem (s : State) (c : Csr) (v : Word) : (writeCsr s c v).mem = s.mem := by unfold writeCsr; split <;> rfl
@[simp] theorem writeCsr_cache (s : State) (c : Csr) (v : Word) : (writeCsr s c v).cache = s.cache := by unfold writeCsr; split <;> rfl
@[simp] theorem writeCsr_inputs (s : State) (c : Csr) (v : Word) : (writeCsr s c v).inputs = s.inputs := by unfold writeCsr; split <;> rfl
@[simp] theorem writeCsr_trap (s : State) (c : Csr) (v : Word) : (writeCsr s c v).trap = s.trap := by unfold writeCsr; split <;> rfl
@[simp] theorem writeCsr_tick (s : State) (c : Csr) (v : Word) : (writeCsr s c v).tick = s.tick := by unfold writeCsr; split <;> rfl
@[simp] theorem writeCsr_pending (s : State) (c : Csr) (v : Word) : (writeCsr s c v).pending = s.pending := by unfold writeCsr; split <;> rfl

/-! ## `cacheInval` -/

@[simp] theorem cacheInval_cfg (s : State) (b : Nat) : (cacheInval s b).cfg = s.cfg := rfl
@[simp] theorem cacheInval_csrs (s : State) (b : Nat) : (cacheInval s b).csrs = s.csrs := rfl
@[simp] theorem cacheInval_regs (s : State) (b : Nat) : (cacheInval s b).regs = s.regs := rfl
@[simp] theorem cacheInval_pc (s : State) (b : Nat) : (cacheInval s b).pc = s.pc := rfl
@[simp] theorem cacheInval_mem (s : State) (b : Nat) : (cacheInval s b).mem = s.mem := rfl
@[simp] theorem cacheInval_inputs (s : State) (b : Nat) : (cacheInval s b).inputs = s.inputs := rfl
@[simp] theorem cacheInval_trap (s : State) (b : Nat) : (cacheInval s b).trap = s.trap := rfl
@[simp] theorem cacheInval_tick (s : State) (b : Nat) : (cacheInval s b).tick = s.tick := rfl
@[simp] theorem cacheInval_pending (s : State) (b : Nat) : (cacheInval s b).pending = s.pending := rfl
@[simp] theorem cacheInval_cache (s : State) (b : Nat) : (cacheInval s b).cache = s.cache.drop b := rfl

/-! ## `cacheClean` -/

@[simp] theorem cacheClean_cfg (s : State) (b : Nat) : (cacheClean s b).cfg = s.cfg := by unfold cacheClean; split <;> rfl
@[simp] theorem cacheClean_csrs (s : State) (b : Nat) : (cacheClean s b).csrs = s.csrs := by unfold cacheClean; split <;> rfl
@[simp] theorem cacheClean_regs (s : State) (b : Nat) : (cacheClean s b).regs = s.regs := by unfold cacheClean; split <;> rfl
@[simp] theorem cacheClean_pc (s : State) (b : Nat) : (cacheClean s b).pc = s.pc := by unfold cacheClean; split <;> rfl
@[simp] theorem cacheClean_inputs (s : State) (b : Nat) : (cacheClean s b).inputs = s.inputs := by unfold cacheClean; split <;> rfl
@[simp] theorem cacheClean_trap (s : State) (b : Nat) : (cacheClean s b).trap = s.trap := by unfold cacheClean; split <;> rfl
@[simp] theorem cacheClean_tick (s : State) (b : Nat) : (cacheClean s b).tick = s.tick := by unfold cacheClean; split <;> rfl
@[simp] theorem cacheClean_pending (s : State) (b : Nat) : (cacheClean s b).pending = s.pending := by unfold cacheClean; split <;> rfl

/-! ## `cacheFlush` -/

@[simp] theorem cacheFlush_cfg (s : State) (b : Nat) : (cacheFlush s b).cfg = s.cfg := by simp [cacheFlush]
@[simp] theorem cacheFlush_csrs (s : State) (b : Nat) : (cacheFlush s b).csrs = s.csrs := by simp [cacheFlush]
@[simp] theorem cacheFlush_regs (s : State) (b : Nat) : (cacheFlush s b).regs = s.regs := by simp [cacheFlush]
@[simp] theorem cacheFlush_pc (s : State) (b : Nat) : (cacheFlush s b).pc = s.pc := by simp [cacheFlush]
@[simp] theorem cacheFlush_inputs (s : State) (b : Nat) : (cacheFlush s b).inputs = s.inputs := by simp [cacheFlush]
@[simp] theorem cacheFlush_trap (s : State) (b : Nat) : (cacheFlush s b).trap = s.trap := by simp [cacheFlush]
@[simp] theorem cacheFlush_tick (s : State) (b : Nat) : (cacheFlush s b).tick = s.tick := by simp [cacheFlush]
@[simp] theorem cacheFlush_pending (s : State) (b : Nat) : (cacheFlush s b).pending = s.pending := by simp [cacheFlush]
@[simp] theorem cacheFlush_mem (s : State) (b : Nat) : (cacheFlush s b).mem = (cacheClean s b).mem := rfl
@[simp] theorem cacheFlush_cache (s : State) (b : Nat) : (cacheFlush s b).cache = (cacheClean s b).cache.drop b := rfl

/-! ## `cacheFill` -/

@[simp] theorem cacheFill_cfg (s : State) (b : Nat) : (cacheFill s b).cfg = s.cfg := by unfold cacheFill; split <;> rfl
@[simp] theorem cacheFill_csrs (s : State) (b : Nat) : (cacheFill s b).csrs = s.csrs := by unfold cacheFill; split <;> rfl
@[simp] theorem cacheFill_regs (s : State) (b : Nat) : (cacheFill s b).regs = s.regs := by unfold cacheFill; split <;> rfl
@[simp] theorem cacheFill_pc (s : State) (b : Nat) : (cacheFill s b).pc = s.pc := by unfold cacheFill; split <;> rfl
@[simp] theorem cacheFill_mem (s : State) (b : Nat) : (cacheFill s b).mem = s.mem := by unfold cacheFill; split <;> rfl
@[simp] theorem cacheFill_inputs (s : State) (b : Nat) : (cacheFill s b).inputs = s.inputs := by unfold cacheFill; split <;> rfl
@[simp] theorem cacheFill_trap (s : State) (b : Nat) : (cacheFill s b).trap = s.trap := by unfold cacheFill; split <;> rfl
@[simp] theorem cacheFill_tick (s : State) (b : Nat) : (cacheFill s b).tick = s.tick := by unfold cacheFill; split <;> rfl
@[simp] theorem cacheFill_pending (s : State) (b : Nat) : (cacheFill s b).pending = s.pending := by unfold cacheFill; split <;> rfl

/-! ## `cacheEvict` -/

@[simp] theorem cacheEvict_cfg (s : State) (b : Nat) : (cacheEvict s b).cfg = s.cfg := by unfold cacheEvict; split <;> rfl
@[simp] theorem cacheEvict_csrs (s : State) (b : Nat) : (cacheEvict s b).csrs = s.csrs := by unfold cacheEvict; split <;> rfl
@[simp] theorem cacheEvict_regs (s : State) (b : Nat) : (cacheEvict s b).regs = s.regs := by unfold cacheEvict; split <;> rfl
@[simp] theorem cacheEvict_pc (s : State) (b : Nat) : (cacheEvict s b).pc = s.pc := by unfold cacheEvict; split <;> rfl
@[simp] theorem cacheEvict_mem (s : State) (b : Nat) : (cacheEvict s b).mem = s.mem := by unfold cacheEvict; split <;> rfl
@[simp] theorem cacheEvict_inputs (s : State) (b : Nat) : (cacheEvict s b).inputs = s.inputs := by unfold cacheEvict; split <;> rfl
@[simp] theorem cacheEvict_trap (s : State) (b : Nat) : (cacheEvict s b).trap = s.trap := by unfold cacheEvict; split <;> rfl
@[simp] theorem cacheEvict_tick (s : State) (b : Nat) : (cacheEvict s b).tick = s.tick := by unfold cacheEvict; split <;> rfl
@[simp] theorem cacheEvict_pending (s : State) (b : Nat) : (cacheEvict s b).pending = s.pending := by unfold cacheEvict; split <;> rfl

/-! ## `cacheWriteBackPart` -/

@[simp] theorem cacheWriteBackPart_cfg (s : State) (b : Nat) (os : List Nat) : (cacheWriteBackPart s b os).cfg = s.cfg := by unfold cacheWriteBackPart; split <;> rfl
@[simp] theorem cacheWriteBackPart_csrs (s : State) (b : Nat) (os : List Nat) : (cacheWriteBackPart s b os).csrs = s.csrs := by unfold cacheWriteBackPart; split <;> rfl
@[simp] theorem cacheWriteBackPart_regs (s : State) (b : Nat) (os : List Nat) : (cacheWriteBackPart s b os).regs = s.regs := by unfold cacheWriteBackPart; split <;> rfl
@[simp] theorem cacheWriteBackPart_pc (s : State) (b : Nat) (os : List Nat) : (cacheWriteBackPart s b os).pc = s.pc := by unfold cacheWriteBackPart; split <;> rfl
@[simp] theorem cacheWriteBackPart_cache (s : State) (b : Nat) (os : List Nat) : (cacheWriteBackPart s b os).cache = s.cache := by unfold cacheWriteBackPart; split <;> rfl
@[simp] theorem cacheWriteBackPart_inputs (s : State) (b : Nat) (os : List Nat) : (cacheWriteBackPart s b os).inputs = s.inputs := by unfold cacheWriteBackPart; split <;> rfl
@[simp] theorem cacheWriteBackPart_trap (s : State) (b : Nat) (os : List Nat) : (cacheWriteBackPart s b os).trap = s.trap := by unfold cacheWriteBackPart; split <;> rfl
@[simp] theorem cacheWriteBackPart_tick (s : State) (b : Nat) (os : List Nat) : (cacheWriteBackPart s b os).tick = s.tick := by unfold cacheWriteBackPart; split <;> rfl
@[simp] theorem cacheWriteBackPart_pending (s : State) (b : Nat) (os : List Nat) : (cacheWriteBackPart s b os).pending = s.pending := by unfold cacheWriteBackPart; split <;> rfl

/-! ## `memWriteBlock` -/

@[simp] theorem memWriteBlock_cfg (s : State) (b o : Nat) (vs : List Byte) : (memWriteBlock s b o vs).cfg = s.cfg := by unfold memWriteBlock; simp only; split <;> simp
@[simp] theorem memWriteBlock_csrs (s : State) (b o : Nat) (vs : List Byte) : (memWriteBlock s b o vs).csrs = s.csrs := by unfold memWriteBlock; simp only; split <;> simp
@[simp] theorem memWriteBlock_regs (s : State) (b o : Nat) (vs : List Byte) : (memWriteBlock s b o vs).regs = s.regs := by unfold memWriteBlock; simp only; split <;> simp
@[simp] theorem memWriteBlock_pc (s : State) (b o : Nat) (vs : List Byte) : (memWriteBlock s b o vs).pc = s.pc := by unfold memWriteBlock; simp only; split <;> simp
@[simp] theorem memWriteBlock_mem (s : State) (b o : Nat) (vs : List Byte) : (memWriteBlock s b o vs).mem = s.mem := by unfold memWriteBlock; simp only; split <;> simp
@[simp] theorem memWriteBlock_inputs (s : State) (b o : Nat) (vs : List Byte) : (memWriteBlock s b o vs).inputs = s.inputs := by unfold memWriteBlock; simp only; split <;> simp
@[simp] theorem memWriteBlock_trap (s : State) (b o : Nat) (vs : List Byte) : (memWriteBlock s b o vs).trap = s.trap := by unfold memWriteBlock; simp only; split <;> simp
@[simp] theorem memWriteBlock_tick (s : State) (b o : Nat) (vs : List Byte) : (memWriteBlock s b o vs).tick = s.tick := by unfold memWriteBlock; simp only; split <;> simp
@[simp] theorem memWriteBlock_pending (s : State) (b o : Nat) (vs : List Byte) : (memWriteBlock s b o vs).pending = s.pending := by unfold memWriteBlock; simp only; split <;> simp

/-! ## `memWriteParts` -/

@[simp] theorem memWriteParts_cfg (n : Nat) (s : State) (a : Nat) (vs : List Byte) : (memWriteParts n s a vs).cfg = s.cfg := by
  induction n generalizing s a vs with
  | zero => rfl
  | succ n ih => cases vs <;> simp [memWriteParts, ih]
@[simp] theorem memWriteParts_csrs (n : Nat) (s : State) (a : Nat) (vs : List Byte) : (memWriteParts n s a vs).csrs = s.csrs := by
  induction n generalizing s a vs with
  | zero => rfl
  | succ n ih => cases vs <;> simp [memWriteParts, ih]
@[simp] theorem memWriteParts_regs (n : Nat) (s : State) (a : Nat) (vs : List Byte) : (memWriteParts n s a vs).regs = s.regs := by
  induction n generalizing s a vs with
  | zero => rfl
  | succ n ih => cases vs <;> simp [memWriteParts, ih]
@[simp] theorem memWriteParts_pc (n : Nat) (s : State) (a : Nat) (vs : List Byte) : (memWriteParts n s a vs).pc = s.pc := by
  induction n generalizing s a vs with
  | zero => rfl
  | succ n ih => cases vs <;> simp [memWriteParts, ih]
@[simp] theorem memWriteParts_mem (n : Nat) (s : State) (a : Nat) (vs : List Byte) : (memWriteParts n s a vs).mem = s.mem := by
  induction n generalizing s a vs with
  | zero => rfl
  | succ n ih => cases vs <;> simp [memWriteParts, ih]
@[simp] theorem memWriteParts_inputs (n : Nat) (s : State) (a : Nat) (vs : List Byte) : (memWriteParts n s a vs).inputs = s.inputs := by
  induction n generalizing s a vs with
  | zero => rfl
  | succ n ih => cases vs <;> simp [memWriteParts, ih]
@[simp] theorem memWriteParts_trap (n : Nat) (s : State) (a : Nat) (vs : List Byte) : (memWriteParts n s a vs).trap = s.trap := by
  induction n generalizing s a vs with
  | zero => rfl
  | succ n ih => cases vs <;> simp [memWriteParts, ih]
@[simp] theorem memWriteParts_tick (n : Nat) (s : State) (a : Nat) (vs : List Byte) : (memWriteParts n s a vs).tick = s.tick := by
  induction n generalizing s a vs with
  | zero => rfl
  | succ n ih => cases vs <;> simp [memWriteParts, ih]
@[simp] theorem memWriteParts_pending (n : Nat) (s : State) (a : Nat) (vs : List Byte) : (memWriteParts n s a vs).pending = s.pending := by
  induction n generalizing s a vs with
  | zero => rfl
  | succ n ih => cases vs <;> simp [memWriteParts, ih]

/-! ## `memWrite` -/

@[simp] theorem memWrite_cfg (s : State) (a : Nat) (vs : List Byte) : (memWrite s a vs).cfg = s.cfg := by simp [memWrite]
@[simp] theorem memWrite_csrs (s : State) (a : Nat) (vs : List Byte) : (memWrite s a vs).csrs = s.csrs := by simp [memWrite]
@[simp] theorem memWrite_regs (s : State) (a : Nat) (vs : List Byte) : (memWrite s a vs).regs = s.regs := by simp [memWrite]
@[simp] theorem memWrite_pc (s : State) (a : Nat) (vs : List Byte) : (memWrite s a vs).pc = s.pc := by simp [memWrite]
@[simp] theorem memWrite_mem (s : State) (a : Nat) (vs : List Byte) : (memWrite s a vs).mem = s.mem := by simp [memWrite]
@[simp] theorem memWrite_inputs (s : State) (a : Nat) (vs : List Byte) : (memWrite s a vs).inputs = s.inputs := by simp [memWrite]
@[simp] theorem memWrite_trap (s : State) (a : Nat) (vs : List Byte) : (memWrite s a vs).trap = s.trap := by simp [memWrite]
@[simp] theorem memWrite_tick (s : State) (a : Nat) (vs : List Byte) : (memWrite s a vs).tick = s.tick := by simp [memWrite]
@[simp] theorem memWrite_pending (s : State) (a : Nat) (vs : List Byte) : (memWrite s a vs).pending = s.pending := by simp [memWrite]

/-! ## `blockZero` -/

@[simp] theorem blockZero_cfg (s : State) (b : Nat) : (blockZero s b).cfg = s.cfg := by simp [blockZero]
@[simp] theorem blockZero_csrs (s : State) (b : Nat) : (blockZero s b).csrs = s.csrs := by simp [blockZero]
@[simp] theorem blockZero_regs (s : State) (b : Nat) : (blockZero s b).regs = s.regs := by simp [blockZero]
@[simp] theorem blockZero_pc (s : State) (b : Nat) : (blockZero s b).pc = s.pc := by simp [blockZero]
@[simp] theorem blockZero_mem (s : State) (b : Nat) : (blockZero s b).mem = s.mem := by simp [blockZero]
@[simp] theorem blockZero_inputs (s : State) (b : Nat) : (blockZero s b).inputs = s.inputs := by simp [blockZero]
@[simp] theorem blockZero_trap (s : State) (b : Nat) : (blockZero s b).trap = s.trap := by simp [blockZero]
@[simp] theorem blockZero_tick (s : State) (b : Nat) : (blockZero s b).tick = s.tick := by simp [blockZero]
@[simp] theorem blockZero_pending (s : State) (b : Nat) : (blockZero s b).pending = s.pending := by simp [blockZero]

/-! ## `invalOperate` -/

@[simp] theorem invalOperate_cfg (b : Nat) (s : State) : (invalOperate b s).cfg = s.cfg := by unfold invalOperate; split <;> simp
@[simp] theorem invalOperate_csrs (b : Nat) (s : State) : (invalOperate b s).csrs = s.csrs := by unfold invalOperate; split <;> simp
@[simp] theorem invalOperate_regs (b : Nat) (s : State) : (invalOperate b s).regs = s.regs := by unfold invalOperate; split <;> simp
@[simp] theorem invalOperate_pc (b : Nat) (s : State) : (invalOperate b s).pc = s.pc := by unfold invalOperate; split <;> simp
@[simp] theorem invalOperate_inputs (b : Nat) (s : State) : (invalOperate b s).inputs = s.inputs := by unfold invalOperate; split <;> simp
@[simp] theorem invalOperate_trap (b : Nat) (s : State) : (invalOperate b s).trap = s.trap := by unfold invalOperate; split <;> simp
@[simp] theorem invalOperate_tick (b : Nat) (s : State) : (invalOperate b s).tick = s.tick := by unfold invalOperate; split <;> simp
@[simp] theorem invalOperate_pending (b : Nat) (s : State) : (invalOperate b s).pending = s.pending := by unfold invalOperate; split <;> simp

/-! ## `placeByte` -/

@[simp] theorem placeByte_cfg (s : State) (a : Nat) (v : Byte) : (placeByte s a v).cfg = s.cfg := by unfold placeByte; simp only; split <;> rfl
@[simp] theorem placeByte_csrs (s : State) (a : Nat) (v : Byte) : (placeByte s a v).csrs = s.csrs := by unfold placeByte; simp only; split <;> rfl
@[simp] theorem placeByte_regs (s : State) (a : Nat) (v : Byte) : (placeByte s a v).regs = s.regs := by unfold placeByte; simp only; split <;> rfl
@[simp] theorem placeByte_pc (s : State) (a : Nat) (v : Byte) : (placeByte s a v).pc = s.pc := by unfold placeByte; simp only; split <;> rfl
@[simp] theorem placeByte_inputs (s : State) (a : Nat) (v : Byte) : (placeByte s a v).inputs = s.inputs := by unfold placeByte; simp only; split <;> rfl
@[simp] theorem placeByte_trap (s : State) (a : Nat) (v : Byte) : (placeByte s a v).trap = s.trap := by unfold placeByte; simp only; split <;> rfl
@[simp] theorem placeByte_tick (s : State) (a : Nat) (v : Byte) : (placeByte s a v).tick = s.tick := by unfold placeByte; simp only; split <;> rfl
@[simp] theorem placeByte_pending (s : State) (a : Nat) (v : Byte) : (placeByte s a v).pending = s.pending := by unfold placeByte; simp only; split <;> rfl

/-! ## `placeBytes` -/

@[simp] theorem placeBytes_cfg (s : State) (a : Nat) (vs : List Byte) : (placeBytes s a vs).cfg = s.cfg := by
  induction vs generalizing s a with
  | nil => rfl
  | cons v vs ih => simp [placeBytes, ih]
@[simp] theorem placeBytes_csrs (s : State) (a : Nat) (vs : List Byte) : (placeBytes s a vs).csrs = s.csrs := by
  induction vs generalizing s a with
  | nil => rfl
  | cons v vs ih => simp [placeBytes, ih]
@[simp] theorem placeBytes_regs (s : State) (a : Nat) (vs : List Byte) : (placeBytes s a vs).regs = s.regs := by
  induction vs generalizing s a with
  | nil => rfl
  | cons v vs ih => simp [placeBytes, ih]
@[simp] theorem placeBytes_pc (s : State) (a : Nat) (vs : List Byte) : (placeBytes s a vs).pc = s.pc := by
  induction vs generalizing s a with
  | nil => rfl
  | cons v vs ih => simp [placeBytes, ih]
@[simp] theorem placeBytes_inputs (s : State) (a : Nat) (vs : List Byte) : (placeBytes s a vs).inputs = s.inputs := by
  induction vs generalizing s a with
  | nil => rfl
  | cons v vs ih => simp [placeBytes, ih]
@[simp] theorem placeBytes_trap (s : State) (a : Nat) (vs : List Byte) : (placeBytes s a vs).trap = s.trap := by
  induction vs generalizing s a with
  | nil => rfl
  | cons v vs ih => simp [placeBytes, ih]
@[simp] theorem placeBytes_tick (s : State) (a : Nat) (vs : List Byte) : (placeBytes s a vs).tick = s.tick := by
  induction vs generalizing s a with
  | nil => rfl
  | cons v vs ih => simp [placeBytes, ih]
@[simp] theorem placeBytes_pending (s : State) (a : Nat) (vs : List Byte) : (placeBytes s a vs).pending = s.pending := by
  induction vs generalizing s a with
  | nil => rfl
  | cons v vs ih => simp [placeBytes, ih]

/-! ## One value for each CSR -/

@[simp] theorem PerCsr.get_set_same {α : Type} (p : PerCsr α) (c : Csr) (v : α) : (p.set c v).get c = v := by
  cases c <;> rfl

theorem PerCsr.get_set_other {α : Type} (p : PerCsr α) {c c' : Csr} (v : α) (h : c' ≠ c) :
    (p.set c v).get c' = p.get c' := by
  cases c <;> cases c' <;> first | rfl | exact absurd rfl h

@[simp] theorem mem_csrAll (c : Csr) : c ∈ Csr.all := by cases c <;> decide

/-! ## XLEN -/

@[simp] theorem trunc_trunc (x : XLen) (w : Word) : x.trunc (x.trunc w) = x.trunc w := by
  cases x <;> simp [XLen.trunc]

@[simp] theorem trunc_zero (x : XLen) : x.trunc 0#64 = 0#64 := by cases x <;> rfl

/-- Truncation keeps the low bits: as a mask. -/
theorem trunc_rv32_eq_and (w : Word) : XLen.rv32.trunc w = w &&& 0xFFFFFFFF#64 := by
  apply BitVec.eq_of_toNat_eq
  have h := Nat.and_two_pow_sub_one_eq_mod w.toNat 32
  simp only [XLen.trunc, BitVec.toNat_setWidth, BitVec.toNat_and]
  rw [show (0xFFFFFFFF#64).toNat = 2 ^ 32 - 1 by rfl, h]
  omega

/-- The defined bits of a CSR lie in both widths. -/
@[simp] theorem trunc_and_definedBits (x : XLen) (w : Word) : x.trunc w &&& definedBits = w &&& definedBits := by
  cases x
  · rw [trunc_rv32_eq_and, BitVec.and_assoc, show 0xFFFFFFFF#64 &&& definedBits = definedBits by decide]
  · rfl

theorem toNat_trunc (x : XLen) (w : Word) : (x.trunc w).toNat = w.toNat % 2 ^ x.bits := by
  cases x
  · simp only [XLen.trunc, XLen.bits, BitVec.toNat_setWidth]
    have := Nat.mod_lt w.toNat (show 0 < 2 ^ 32 by decide)
    omega
  · exact (Nat.mod_eq_of_lt w.isLt).symm

/-! ## Registers -/

@[simp] theorem readReg_zero (s : State) : readReg s 0 = 0 := rfl

@[simp] theorem writeReg_zero (s : State) (v : Word) : writeReg s 0 v = s := rfl

theorem readReg_writeReg_same (s : State) {r : Reg} (h : r ≠ 0) (v : Word) :
    readReg (writeReg s r v) r = s.cfg.xlen.trunc v := by
  simp [readReg, writeReg, h]

theorem readReg_writeReg_other (s : State) {r q : Reg} (h : q ≠ r) (v : Word) :
    readReg (writeReg s r v) q = readReg s q := by
  have hv : ¬ r.val = q.val := fun e => h (Fin.ext e.symm)
  unfold readReg writeReg
  split
  · rfl
  · split
    · rfl
    · simp [hv]

end Sys2Proof.Machine
end

