-- ==== Sys2Proof/Laws/Storage.lean ====
section
/-! SUPPORT. What each operation does to the bytes a read returns, and that each keeps memory and cache legal. -/

namespace Sys2Proof.Machine

/-- Memory and cache are legal. -/
abbrev Storage (s : State) : Prop := s.mem.wf ∧ s.cache.wf s.cfg s.mem

theorem State.Inv.storage {s : State} (h : s.Inv) : Storage s := ⟨h.1, h.2.1⟩

/-! ## The read of one byte -/

/-- A read of a block with no cached copy comes from memory. -/
theorem readByte_absent {s : State} {a : Nat} (h : s.cache.find (blockBase s.cfg a) = none) :
    readByte s a = s.mem.read a := by
  simp [readByte, h]

/-- A read of a block with a cached copy comes from it. -/
theorem readByte_present {s : State} {a : Nat} {l : Line} (h : s.cache.find (blockBase s.cfg a) = some l) :
    readByte s a = l.data.getD (a - blockBase s.cfg a) (s.mem.read a) := by
  simp [readByte, h]

/-- A read through a legal copy that is not modified is memory's byte. -/
theorem readByte_clean {s : State} (hs : Storage s) {a : Nat} {d : List Byte}
    (h : s.cache.find (blockBase s.cfg a) = some ⟨d, false⟩) : readByte s a = s.mem.read a := by
  obtain ⟨-, hlen, hd⟩ := lineOk_of_find hs.2 h
  have h1 := blockBase_le s.cfg a
  have h2 := lt_blockBase_add s.cfg a
  have hi : a - blockBase s.cfg a < d.length := by simp only at hlen; omega
  rw [readByte_present h]
  simp only at hd ⊢
  rw [List.getD_eq_getElem _ _ hi]
  have hdd := hd trivial
  rw [List.getElem_of_eq hdd, getElem_readBytes]
  congr 1
  omega

/-- Two states that agree on a block's copy and on memory's byte read the same there. -/
theorem readByte_congr {s t : State} {a : Nat} (hc : t.cfg = s.cfg)
    (hf : t.cache.find (blockBase s.cfg a) = s.cache.find (blockBase s.cfg a)) (hm : t.mem.read a = s.mem.read a) :
    readByte t a = readByte s a := by
  simp only [readByte, hc, hf, hm]

/-! ## Clean -/

theorem cacheClean_modified {s : State} {b : Nat} {d : List Byte} (h : s.cache.find b = some ⟨d, true⟩) :
    cacheClean s b = { s with mem := s.mem.writeBytes b d, cache := s.cache.put b ⟨d, false⟩ } := by
  simp [cacheClean, h]

theorem cacheClean_clean {s : State} {b : Nat} {d : List Byte} (h : s.cache.find b = some ⟨d, false⟩) :
    cacheClean s b = s := by
  simp [cacheClean, h]

theorem cacheClean_absent {s : State} {b : Nat} (h : s.cache.find b = none) : cacheClean s b = s := by
  simp [cacheClean, h]

/-- Memory outside the block is left alone by a clean operation. -/
theorem read_mem_cacheClean_outside {s : State} (hs : Storage s) {b a : Nat} (h : a < b ∨ b + blockSize s.cfg ≤ a) :
    (cacheClean s b).mem.read a = s.mem.read a := by
  cases hf : s.cache.find b with
  | none => rw [cacheClean_absent hf]
  | some l =>
    obtain ⟨d, m⟩ := l
    cases m with
    | false => rw [cacheClean_clean hf]
    | true =>
      have hlen : d.length = blockSize s.cfg := (lineOk_of_find hs.2 hf).2.1
      rw [cacheClean_modified hf]
      exact read_writeBytes_outside _ _ (by omega)

theorem cacheClean_storage {s : State} (hs : Storage s) (b : Nat) : Storage (cacheClean s b) := by
  cases hf : s.cache.find b with
  | none => rwa [cacheClean_absent hf]
  | some l =>
    obtain ⟨d, m⟩ := l
    cases m with
    | false => rwa [cacheClean_clean hf]
    | true =>
      obtain ⟨ha, hlen, -⟩ := lineOk_of_find hs.2 hf
      simp only at hlen ha
      rw [cacheClean_modified hf]
      refine ⟨writeBytes_wf hs.1 b d, put_wf hs.2 ⟨ha, hlen, fun _ => ?_⟩ fun a h => ?_⟩
      · simp only [← hlen]
        exact (readBytes_writeBytes_same hs.1 b d).symm
      · exact read_writeBytes_outside _ _ (by omega)

/-- After a clean operation memory holds, for every byte of the block, what a read returns (20_memory.md R48). -/
theorem mem_cacheClean_inside {s : State} (hs : Storage s) {a : Nat} :
    (cacheClean s (blockBase s.cfg a)).mem.read a = readByte s a := by
  have h1 := blockBase_le s.cfg a
  have h2 := lt_blockBase_add s.cfg a
  cases hf : s.cache.find (blockBase s.cfg a) with
  | none => rw [cacheClean_absent hf, readByte_absent hf]
  | some l =>
    obtain ⟨d, m⟩ := l
    cases m with
    | false => rw [cacheClean_clean hf, readByte_clean hs hf]
    | true =>
      have hlen : d.length = blockSize s.cfg := (lineOk_of_find hs.2 hf).2.1
      have hi : a - blockBase s.cfg a < d.length := by omega
      have hr := read_writeBytes_inside hs.1 (blockBase s.cfg a) d hi
      rw [Nat.add_sub_cancel' h1] at hr
      rw [cacheClean_modified hf, readByte_present hf]
      simp only
      rw [hr, List.getD_eq_getElem _ _ hi]

/-- A clean operation changes no byte a read returns. -/
theorem readByte_cacheClean {s : State} (hs : Storage s) (b a : Nat) : readByte (cacheClean s b) a = readByte s a := by
  by_cases hb : b = blockBase s.cfg a
  · subst hb
    have ht := cacheClean_storage hs (blockBase s.cfg a)
    have hm := mem_cacheClean_inside hs (a := a)
    cases hf : s.cache.find (blockBase s.cfg a) with
    | none => rw [cacheClean_absent hf]
    | some l =>
      obtain ⟨d, m⟩ := l
      cases m with
      | false => rw [cacheClean_clean hf]
      | true =>
        rw [← hm]
        refine readByte_clean ht (d := d) ?_
        rw [cacheClean_modified hf]
        exact find_put_same _ _ _
  · cases hf : s.cache.find b with
    | none => rw [cacheClean_absent hf]
    | some l =>
      obtain ⟨d, m⟩ := l
      cases m with
      | false => rw [cacheClean_clean hf]
      | true =>
        have hl := lineOk_of_find hs.2 hf
        refine readByte_congr (by simp) ?_ (read_mem_cacheClean_outside hs ?_)
        · rw [cacheClean_modified hf]
          exact find_put_other _ _ (Ne.symm hb)
        · exact blocks_disjoint (blockBase_aligned s.cfg a) hl.1 (Ne.symm hb) ⟨blockBase_le _ _, lt_blockBase_add _ _⟩

/-! ## Invalidate and flush -/

theorem cacheInval_storage {s : State} (hs : Storage s) (b : Nat) : Storage (cacheInval s b) :=
  ⟨hs.1, drop_wf hs.2 b⟩

/-- After an invalidate operation a read of the block returns memory's byte (20_memory.md R53 (a)). -/
theorem readByte_cacheInval_inside (s : State) (a : Nat) :
    readByte (cacheInval s (blockBase s.cfg a)) a = s.mem.read a :=
  readByte_absent (by simp)

/-- An invalidate operation leaves every read outside the block alone. -/
theorem readByte_cacheInval_outside (s : State) {a b : Nat} (h : blockBase s.cfg a ≠ b) :
    readByte (cacheInval s b) a = readByte s a :=
  readByte_congr rfl (find_drop_other _ h) rfl

theorem cacheFlush_storage {s : State} (hs : Storage s) (b : Nat) : Storage (cacheFlush s b) :=
  cacheInval_storage (cacheClean_storage hs b) b

/-- A flush operation changes no byte a read returns (20_memory.md R49, R53 (c)). -/
theorem readByte_cacheFlush {s : State} (hs : Storage s) (b a : Nat) : readByte (cacheFlush s b) a = readByte s a := by
  by_cases hb : blockBase s.cfg a = b
  · subst hb
    rw [← mem_cacheClean_inside hs (a := a)]
    exact readByte_absent (by simp)
  · rw [cacheFlush, readByte_cacheInval_outside _ (by simpa using hb), readByte_cacheClean hs]

/-! ## Spontaneous transitions -/

theorem cacheFill_present {s : State} {b : Nat} {l : Line} (h : s.cache.find b = some l) : cacheFill s b = s := by
  simp [cacheFill, h]

theorem cacheFill_absent {s : State} {b : Nat} (h : s.cache.find b = none) :
    cacheFill s b = { s with cache := s.cache.put b ⟨s.mem.readBytes b (blockSize s.cfg), false⟩ } := by
  simp [cacheFill, h]

theorem cacheFill_storage {s : State} (hs : Storage s) {b : Nat} (hb : b % blockSize s.cfg = 0) :
    Storage (cacheFill s b) := by
  cases hf : s.cache.find b with
  | some l => rwa [cacheFill_present hf]
  | none =>
    rw [cacheFill_absent hf]
    exact ⟨hs.1, put_wf hs.2 ⟨hb, by simp, fun _ => rfl⟩ fun _ _ => rfl⟩

theorem readByte_cacheFill {s : State} (hs : Storage s) {b : Nat} (hb : b % blockSize s.cfg = 0) (a : Nat) :
    readByte (cacheFill s b) a = readByte s a := by
  cases hf : s.cache.find b with
  | some l => rw [cacheFill_present hf]
  | none =>
    by_cases h : blockBase s.cfg a = b
    · subst h
      rw [readByte_absent hf]
      have ht := cacheFill_storage hs hb
      rw [cacheFill_absent hf] at ht ⊢
      exact readByte_clean ht (find_put_same _ _ _)
    · rw [cacheFill_absent hf]
      exact readByte_congr rfl (find_put_other _ _ h) rfl

theorem cacheEvict_storage {s : State} (hs : Storage s) (b : Nat) : Storage (cacheEvict s b) := by
  unfold cacheEvict
  split
  · exact ⟨hs.1, drop_wf hs.2 b⟩
  · exact hs
  · exact hs

theorem readByte_cacheEvict {s : State} (hs : Storage s) (b a : Nat) : readByte (cacheEvict s b) a = readByte s a := by
  unfold cacheEvict
  split
  · rename_i d hf
    by_cases h : blockBase s.cfg a = b
    · subst h
      rw [readByte_clean hs hf]
      exact readByte_absent (by simp)
    · exact readByte_congr rfl (find_drop_other _ h) rfl
  · rfl
  · rfl

theorem cacheWriteBackPart_storage {s : State} (hs : Storage s) (b : Nat) (os : List Nat) :
    Storage (cacheWriteBackPart s b os) := by
  unfold cacheWriteBackPart
  split
  · rename_i d _ hf
    have hlen : d.length = blockSize s.cfg := (lineOk_of_find hs.2 hf).2.1
    refine ⟨writeOffsets_wf hs.1 _ _ _, wf_of_modified hs.2 hf fun a h => ?_⟩
    exact read_writeOffsets_outside _ _ _ (by simp only at h; omega)
  · exact hs
  · exact hs
  · exact hs

theorem readByte_cacheWriteBackPart {s : State} (hs : Storage s) (b : Nat) (os : List Nat) (a : Nat) :
    readByte (cacheWriteBackPart s b os) a = readByte s a := by
  unfold cacheWriteBackPart
  split
  · rename_i d _ hf
    obtain ⟨ha, hlen, -⟩ := lineOk_of_find hs.2 hf
    simp only at hlen ha
    have h1 := blockBase_le s.cfg a
    have h2 := lt_blockBase_add s.cfg a
    by_cases h : blockBase s.cfg a = b
    · subst h
      have hi : a - blockBase s.cfg a < d.length := by omega
      simp only [readByte, hf, List.getD_eq_getElem _ _ hi]
    · refine readByte_congr rfl rfl (read_writeOffsets_outside _ _ _ ?_)
      have := blocks_disjoint (blockBase_aligned s.cfg a) ha h ⟨h1, h2⟩
      omega
  · rfl
  · rfl
  · rfl

/-! ## Writes through the cache -/

theorem length_splice {d : List Byte} {o : Nat} {vs : List Byte} (h : o + vs.length ≤ d.length) :
    (splice d o vs).length = d.length := by
  simp [splice]; omega

theorem getElem?_splice {d : List Byte} {o : Nat} {vs : List Byte} (h : o + vs.length ≤ d.length) (i : Nat) :
    (splice d o vs)[i]? = if o ≤ i ∧ i < o + vs.length then vs[i - o]? else d[i]? := by
  have ho : (d.take o).length = o := by simp; omega
  have hov : (d.take o ++ vs).length = o + vs.length := by simp [ho]
  unfold splice
  by_cases h1 : i < o
  · rw [List.append_assoc, List.getElem?_append_left (by omega), if_neg (by omega), List.getElem?_take_of_lt h1]
  · by_cases h2 : i < o + vs.length
    · rw [List.getElem?_append_left (by omega), List.getElem?_append_right (by omega), if_pos ⟨by omega, h2⟩, ho]
    · rw [List.getElem?_append_right (by omega), if_neg (by omega), List.getElem?_drop, hov]
      congr 1
      omega

/-- Where a block is present, or filled, a write puts its bytes into the copy and marks it modified. -/
theorem memWriteBlock_cache (s : State) (b o : Nat) (vs : List Byte) :
    ∃ l, (cacheFill s b).cache.find b = some l ∧
      memWriteBlock s b o vs =
        { cacheFill s b with cache := (cacheFill s b).cache.put b ⟨splice l.data o vs, true⟩ } := by
  have hex : ∃ l, (cacheFill s b).cache.find b = some l := by
    cases hf : s.cache.find b with
    | some l => exact ⟨l, by rw [cacheFill_present hf, hf]⟩
    | none => exact ⟨_, by rw [cacheFill_absent hf]; exact find_put_same _ _ _⟩
  obtain ⟨l, hl⟩ := hex
  exact ⟨l, hl, by simp [memWriteBlock, hl]⟩

theorem memWriteBlock_storage {s : State} (hs : Storage s) {b o : Nat} {vs : List Byte}
    (hb : b % blockSize s.cfg = 0) (ho : o + vs.length ≤ blockSize s.cfg) : Storage (memWriteBlock s b o vs) := by
  obtain ⟨l, hl, heq⟩ := memWriteBlock_cache s b o vs
  have ht := cacheFill_storage hs hb
  have hlen : l.data.length = blockSize s.cfg := by simpa using (lineOk_of_find ht.2 hl).2.1
  rw [heq]
  refine ⟨ht.1, put_wf ht.2 ⟨by simpa using hb, ?_, by simp⟩ fun _ _ => rfl⟩
  rw [length_splice (by omega)]
  simpa using hlen

/-- What a read returns after a write of bytes that lie in one block. -/
theorem readByte_memWriteBlock {s : State} (hs : Storage s) {b o : Nat} {vs : List Byte}
    (hb : b % blockSize s.cfg = 0) (ho : o + vs.length ≤ blockSize s.cfg) (a : Nat) :
    readByte (memWriteBlock s b o vs) a =
      if b + o ≤ a ∧ a < b + o + vs.length then vs.getD (a - (b + o)) 0 else readByte s a := by
  obtain ⟨l, hl, heq⟩ := memWriteBlock_cache s b o vs
  have ht := cacheFill_storage hs hb
  have hlen : l.data.length = blockSize s.cfg := by simpa using (lineOk_of_find ht.2 hl).2.1
  have hr := readByte_cacheFill hs hb a
  rw [heq]
  by_cases h : blockBase s.cfg a = b
  · subst h
    have h1 := blockBase_le s.cfg a
    have h2 := lt_blockBase_add s.cfg a
    rw [← hr, readByte_present (s := cacheFill s _) (l := l) (by simpa using hl),
      readByte_present (s := { cacheFill s _ with cache := _ }) (l := ⟨splice l.data o vs, true⟩)
        (by simpa using find_put_same _ _ _)]
    simp only [cacheFill_cfg, cacheFill_mem, List.getD_eq_getElem?_getD, getElem?_splice (d := l.data) (o := o) (vs := vs) (by omega)]
    by_cases hin : o ≤ a - blockBase s.cfg a ∧ a - blockBase s.cfg a < o + vs.length
    · rw [if_pos hin, if_pos (by omega)]
      have hlt : a - blockBase s.cfg a - o < vs.length := by omega
      rw [List.getElem?_eq_getElem hlt,
        show a - (blockBase s.cfg a + o) = a - blockBase s.cfg a - o by omega, List.getElem?_eq_getElem hlt]
      rfl
    · rw [if_neg hin, if_neg (by omega)]
  · rw [if_neg, ← hr]
    · exact readByte_congr rfl (find_put_other _ _ (by simpa using h)) rfl
    · intro hc
      exact h (blockBase_of_mem hb (by omega) (by omega))

theorem memWriteParts_storage (n : Nat) {s : State} (hs : Storage s) (a : Nat) (vs : List Byte) :
    Storage (memWriteParts n s a vs) := by
  induction n generalizing s a vs with
  | zero => exact hs
  | succ n ih =>
    cases vs with
    | nil => exact hs
    | cons v vs =>
      have h1 := blockBase_le s.cfg a
      have h2 := lt_blockBase_add s.cfg a
      refine ih (memWriteBlock_storage hs (blockBase_aligned s.cfg a) ?_) _ _
      rw [List.length_take]
      omega

theorem memWrite_storage {s : State} (hs : Storage s) (a : Nat) (vs : List Byte) : Storage (memWrite s a vs) :=
  memWriteParts_storage _ hs a vs

theorem blockZero_storage {s : State} (hs : Storage s) {b : Nat} (hb : b % blockSize s.cfg = 0) :
    Storage (blockZero s b) :=
  memWriteBlock_storage hs hb (by simp)

end Sys2Proof.Machine
end

