-- ==== Sys2Proof/Laws/Exec.lean ====
section
/-! SUPPORT. What the execution of one instruction can do, said once for all four, and the control bits in the form the
statements use. -/

namespace Sys2Proof.Machine

/-! ## Legality -/

theorem legal_iff_illegalCBM (s : State) (i : Instr) (h : i.op ≠ .zero) :
    Legal s i ↔ illegalCBM s s.inputs.curMode = false := by
  have hf : enableField i.op = .CBME := by cases i <;> first | rfl | exact absurd rfl h
  simp only [Legal, hf, Csr.all]
  cases s.inputs.curMode <;> simp [governs, illegalCBM, and_assoc]

theorem legal_iff_illegalCBW (s : State) (i : Instr) (h : i.op = .zero) :
    Legal s i ↔ illegalCBW s s.inputs.curMode = false := by
  simp only [Legal, h, enableField, Csr.all]
  cases s.inputs.curMode <;> simp [governs, illegalCBW, and_assoc]

/-! ## Execution -/

/-- The fault an instruction's access reports. -/
def reportedFault (s : State) : Instr → Option MemFault
  | .cboInval r => invalReportedFault s (effectiveAddress s r)
  | .cboClean r => otherFault s .clean (effectiveAddress s r)
  | .cboFlush r => otherFault s .flush (effectiveAddress s r)
  | .cboZero r => otherFault s .zero (effectiveAddress s r)

/-- The operation an instruction performs. -/
def operated (s : State) : Instr → State
  | .cboInval r => invalOperate (operandBlock s (effectiveAddress s r)) s
  | .cboClean r => cacheClean s (operandBlock s (effectiveAddress s r))
  | .cboFlush r => cacheFlush s (operandBlock s (effectiveAddress s r))
  | .cboZero r => blockZero s (operandBlock s (effectiveAddress s r))

/-- A legal instruction reports its fault, or operates and retires. -/
theorem exec_of_legal {s : State} {i : Instr} (h : Legal s i) :
    exec i s =
      match reportedFault s i with
      | some f => .next (takeException s (.fault f) (some (effectiveAddress s i.rs1)))
      | none => .next (retire (operated s i)) := by
  cases i with
  | cboInval r =>
    simp only [exec, execCboInval, cmoStep, (legal_iff_illegalCBM s (.cboInval r) (by simp [Instr.op])).1 h]
    rfl
  | cboClean r =>
    simp only [exec, execCboClean, cmoStep, (legal_iff_illegalCBM s (.cboClean r) (by simp [Instr.op])).1 h]
    rfl
  | cboFlush r =>
    simp only [exec, execCboFlush, cmoStep, (legal_iff_illegalCBM s (.cboFlush r) (by simp [Instr.op])).1 h]
    rfl
  | cboZero r =>
    simp only [exec, execCboZero, cmoStep, (legal_iff_illegalCBW s (.cboZero r) rfl).1 h]
    rfl

/-- An illegal instruction takes the illegal instruction exception. -/
theorem exec_of_not_legal {s : State} {i : Instr} (h : ¬ Legal s i) :
    exec i s = .next (takeException s .illegalInstruction none) := by
  cases i with
  | cboInval r =>
    rw [legal_iff_illegalCBM s (.cboInval r) (by simp [Instr.op]), Bool.not_eq_false] at h
    simp [exec, execCboInval, cmoStep, h]
  | cboClean r =>
    rw [legal_iff_illegalCBM s (.cboClean r) (by simp [Instr.op]), Bool.not_eq_false] at h
    simp [exec, execCboClean, cmoStep, h]
  | cboFlush r =>
    rw [legal_iff_illegalCBM s (.cboFlush r) (by simp [Instr.op]), Bool.not_eq_false] at h
    simp [exec, execCboFlush, cmoStep, h]
  | cboZero r =>
    rw [legal_iff_illegalCBW s (.cboZero r) rfl, Bool.not_eq_false] at h
    simp [exec, execCboZero, cmoStep, h]

/-- The three ways an execution ends. -/
theorem exec_cases (i : Instr) (s : State) :
    (¬ Legal s i ∧ exec i s = .next (takeException s .illegalInstruction none)) ∨
    (∃ f, Legal s i ∧ reportedFault s i = some f ∧
      exec i s = .next (takeException s (.fault f) (some (effectiveAddress s i.rs1)))) ∨
    (Legal s i ∧ reportedFault s i = none ∧ exec i s = .next (retire (operated s i))) := by
  by_cases h : Legal s i
  · have he := exec_of_legal h
    cases hf : reportedFault s i with
    | some f =>
      rw [hf] at he
      exact .inr (.inl ⟨f, h, rfl, he⟩)
    | none =>
      rw [hf] at he
      exact .inr (.inr ⟨h, rfl, he⟩)
  · exact .inl ⟨h, exec_of_not_legal h⟩

/-- If an execution answers a state without a trap, the instruction was legal, reported no fault and operated. -/
theorem retired_of_exec {i : Instr} {s t : State} (h : exec i s = .next t) (ht : t.trap = none) :
    Legal s i ∧ reportedFault s i = none ∧ t = retire (operated s i) := by
  rcases exec_cases i s with ⟨-, he⟩ | ⟨f, -, -, he⟩ | ⟨hl, hf, he⟩
  · rw [he] at h
    cases h
    simp at ht
  · rw [he] at h
    cases h
    simp at ht
  · rw [he] at h
    cases h
    exact ⟨hl, hf, rfl⟩

/-! ## Faults and operation in the statements' form -/

theorem enableBit_eq_selectedE (s : State) (c : Csr) : enableBit s c = selectedE s c := by
  unfold enableBit selectedE
  cases s.inputs.granted.get c <;> rfl

theorem invalidateBit_eq (s : State) (c : Csr) :
    invalidateBit s c = if mechanismEnabled s c then selectedI s c else bothI s c := by
  unfold invalidateBit selectedI bothI
  cases s.inputs.granted.get c <;> rfl

/-- The chain of the fault rule reports nothing exactly when every mechanism on the path passes. -/
theorem invalPasses_iff (s : State) : invalPasses s = true ↔ invalFault s s.inputs.effMode = none := by
  unfold invalPasses
  cases s.inputs.effMode <;> simp only [invalFault, passes, enableBit_eq_selectedE, mechanismBare] <;> grind

theorem invalidates_eq_formula (s : State) : invalidates s s.inputs.effMode = invalFormula s := by
  unfold invalFormula pageI machineI
  cases s.inputs.effMode <;> simp only [invalidates, invalidateBit_eq, mechanismEnabled] <;> grind

/-- With no other fault a `CBO.INVAL` reports the fault the control registers give. -/
theorem reportedFault_inval {s : State} {r : Reg} (h : NoOtherFault s (.cboInval r)) :
    reportedFault s (.cboInval r) = invalFault s s.inputs.effMode := by
  simp only [NoOtherFault, Instr.op, Instr.rs1] at h
  simp [reportedFault, invalReportedFault, h, combine]

/-! ## The operations look at memory, cache and block size only -/

theorem cacheClean_with (s : State) (csrs : PerCsr Word) (inp : Inputs) (b : Nat) :
    cacheClean { s with csrs := csrs, inputs := inp } b = { cacheClean s b with csrs := csrs, inputs := inp } := by
  unfold cacheClean
  simp only
  split <;> rfl

theorem cacheFlush_with (s : State) (csrs : PerCsr Word) (inp : Inputs) (b : Nat) :
    cacheFlush { s with csrs := csrs, inputs := inp } b = { cacheFlush s b with csrs := csrs, inputs := inp } := by
  simp only [cacheFlush, cacheClean_with]
  rfl

theorem cacheFill_with (s : State) (csrs : PerCsr Word) (inp : Inputs) (b : Nat) :
    cacheFill { s with csrs := csrs, inputs := inp } b = { cacheFill s b with csrs := csrs, inputs := inp } := by
  unfold cacheFill
  simp only
  split <;> rfl

theorem memWriteBlock_with (s : State) (csrs : PerCsr Word) (inp : Inputs) (b o : Nat) (vs : List Byte) :
    memWriteBlock { s with csrs := csrs, inputs := inp } b o vs =
      { memWriteBlock s b o vs with csrs := csrs, inputs := inp } := by
  unfold memWriteBlock
  simp only [cacheFill_with]
  split <;> rfl

theorem blockZero_with (s : State) (csrs : PerCsr Word) (inp : Inputs) (b : Nat) :
    blockZero { s with csrs := csrs, inputs := inp } b = { blockZero s b with csrs := csrs, inputs := inp } :=
  memWriteBlock_with s csrs inp b 0 _

end Sys2Proof.Machine
end

