-- ==== Sys2Proof/Laws/Events.lean ====
section
/-! SUPPORT. What the events between two steps, the operations of the instructions and the placing of a program keep: legal
memory and cache, and the configuration. -/

namespace Sys2Proof.Machine

/-- Memory after reset is in canonical form. -/
theorem reset_mem_wf : State.reset.mem.wf := by decide

/-! ## Storage looks at three fields only -/

theorem storage_congr {s t : State} (hs : Storage s) (hc : t.cfg = s.cfg) (hm : t.mem = s.mem)
    (hk : t.cache = s.cache) : Storage t := by
  unfold Storage
  rw [hc, hm, hk]
  exact hs

/-! ## Events -/

@[simp] theorem applyEvent_cfg (s : State) (e : Event) : (applyEvent s e).cfg = s.cfg := by
  cases e <;> simp only [applyEvent, cacheWriteBack] <;> (try split) <;> simp [memWrite]

theorem applyEvent_storage {s : State} (hs : Storage s) (e : Event) : Storage (applyEvent s e) := by
  cases e with
  | fill a => exact cacheFill_storage hs (blockBase_aligned _ _)
  | writeBack a => exact cacheClean_storage hs _
  | evict a => exact cacheEvict_storage hs _
  | writeBackPart a os => exact cacheWriteBackPart_storage hs _ _
  | store pa bytes => exact memWrite_storage hs _ _
  | csrWrite r v =>
    simp only [applyEvent]
    split
    · exact storage_congr hs (by simp) (by simp) (by simp)
    · exact hs
  | csrRead r rd =>
    simp only [applyEvent]
    split
    · exact storage_congr hs (by simp) (by simp) (by simp)
    · exact hs
  | setReg r v => exact storage_congr hs (by simp [applyEvent]) (by simp [applyEvent]) (by simp [applyEvent])
  | setPc v => exact hs
  | supply i => exact hs
  | takeTrap => exact hs

@[simp] theorem applyEvents_cfg (s : State) (es : List Event) : (applyEvents s es).cfg = s.cfg := by
  induction es generalizing s with
  | nil => rfl
  | cons e es ih => simp [applyEvents, ih]

theorem applyEvents_storage {s : State} (hs : Storage s) (es : List Event) : Storage (applyEvents s es) := by
  induction es generalizing s with
  | nil => exact hs
  | cons e es ih => exact ih (applyEvent_storage hs e)

theorem boundary_storage {s : State} (hs : Storage s) : Storage (boundary s) := by
  unfold boundary
  split
  · exact hs
  · refine applyEvents_storage ?_ _
    exact hs

/-- The two shapes of a boundary: nothing pending, or a batch of events. -/
theorem boundary_cases (s : State) :
    (s.pending = [] ∧ boundary s = { s with tick := s.tick + 1 }) ∨
    ∃ es rest, s.pending = es :: rest ∧
      boundary s = applyEvents { s with tick := s.tick + 1, pending := rest } es := by
  unfold boundary
  cases h : s.pending with
  | nil => exact .inl ⟨rfl, rfl⟩
  | cons es rest => exact .inr ⟨es, rest, rfl, rfl⟩

/-- What a step that answers a next state did: it waited with a trap untaken, or it ran the decoded instruction; both modes
exist. -/
theorem step_cases {s t : State} (h : step s = .next t) :
    modesPresent (boundary s) = true ∧
    (((boundary s).trap ≠ none ∧ t = boundary s) ∨
      ∃ i, (boundary s).trap = none ∧ decodeEnc (boundary s).cfg.enc (fetchWord (boundary s)) = .ok i ∧ exec i (boundary s) = .next t) := by
  unfold step nextAction at h
  cases hm : modesPresent (boundary s) with
  | false => simp [hm] at h
  | true =>
    refine ⟨rfl, ?_⟩
    cases ht : (boundary s).trap with
    | some tr =>
      simp only [hm, ht, Bool.not_true, Bool.false_eq_true, if_false, Option.isSome_some, if_true] at h
      exact .inl ⟨by simp, (Host.Outcome.next.inj h).symm⟩
    | none =>
      cases hc : (boundary s).cfg.cmoImplemented with
      | false => simp [hm, ht, hc] at h
      | true =>
        simp only [hm, ht, hc, Bool.not_true, Bool.false_eq_true, if_false, Option.isSome_none] at h
        cases hd : decodeEnc (boundary s).cfg.enc (fetchWord (boundary s)) with
        | error e => simp [hd] at h
        | ok i =>
          rw [hd] at h
          exact .inr ⟨i, rfl, rfl, h⟩

/-! ## The operations of the instructions -/

theorem operandBlock_aligned (s : State) (ea : Word) : operandBlock s ea % blockSize s.cfg = 0 :=
  blockBase_aligned _ _

theorem operated_storage {s : State} (hs : Storage s) (i : Instr) : Storage (operated s i) := by
  cases i with
  | cboInval r =>
    simp only [operated, invalOperate]
    split
    · exact cacheInval_storage hs _
    · exact cacheFlush_storage hs _
  | cboClean r => exact cacheClean_storage hs _
  | cboFlush r => exact cacheFlush_storage hs _
  | cboZero r => exact blockZero_storage hs (operandBlock_aligned _ _)

/-- An operation changes memory and the cache only. -/
theorem operated_frame (s : State) (i : Instr) :
    operated s i = { s with mem := (operated s i).mem, cache := (operated s i).cache } := by
  have key : ∀ t : State, t.cfg = s.cfg → t.csrs = s.csrs → t.regs = s.regs → t.pc = s.pc → t.inputs = s.inputs →
      t.trap = s.trap → t.tick = s.tick → t.pending = s.pending → t = { s with mem := t.mem, cache := t.cache } := by
    intro t h1 h2 h3 h4 h5 h6 h7 h8
    cases t
    simp_all
  cases i with
  | cboInval r =>
    simp only [operated, invalOperate]
    split <;> apply key <;> simp
  | cboClean r => apply key <;> simp [operated]
  | cboFlush r => apply key <;> simp [operated]
  | cboZero r => apply key <;> simp [operated]

/-! ## Placing a program -/

theorem placeByte_storage {s : State} (hs : Storage s) (a : Nat) (v : Byte) : Storage (placeByte s a v) := by
  have h1 := blockBase_le s.cfg a
  have h2 := lt_blockBase_add s.cfg a
  unfold placeByte
  simp only
  split
  · rename_i l hf
    obtain ⟨ha, hlen, hd⟩ := lineOk_of_find hs.2 hf
    simp only at ha hlen hd
    refine ⟨write_wf hs.1 _ _, put_wf hs.2 ⟨ha, by simpa using hlen, fun hm => ?_⟩ fun x hx => ?_⟩
    · refine List.ext_getElem (by simpa using hlen) fun i hi _ => ?_
      simp only [List.length_set] at hi
      rw [getElem_readBytes, List.getElem_set]
      by_cases hia : blockBase s.cfg a + i = a
      · rw [if_pos (by omega), hia, read_write_same hs.1]
      · rw [if_neg (by omega), read_write_other _ _ hia, List.getElem_of_eq (hd hm), getElem_readBytes]
    · exact read_write_other _ _ (by omega)
  · rename_i hf
    refine ⟨write_wf hs.1 _ _, hs.2.1, fun e he => ?_⟩
    obtain ⟨ha, hlen, hd⟩ := hs.2.2 e he
    refine ⟨ha, hlen, fun hm => ?_⟩
    rw [hd hm]
    refine (readBytes_congr fun i hi => read_write_other _ _ fun hc => ?_).symm
    have hb : blockBase s.cfg a = e.1 := blockBase_of_mem ha (by omega) (by omega)
    rw [hb, find_of_mem hs.2.1 he] at hf
    cases hf

theorem placeBytes_storage {s : State} (hs : Storage s) (a : Nat) (vs : List Byte) : Storage (placeBytes s a vs) := by
  induction vs generalizing s a with
  | nil => exact hs
  | cons v vs ih => exact ih (placeByte_storage hs a v) _

/-- A placed byte reads back through memory. -/
theorem read_placeByte_same {s : State} (hs : Storage s) (a : Nat) (v : Byte) : (placeByte s a v).mem.read a = v := by
  unfold placeByte
  simp only
  split <;> exact read_write_same hs.1 _ _

/-- A placed byte reads back through the cache. -/
theorem readByte_placeByte_same {s : State} (hs : Storage s) (a : Nat) (v : Byte) : readByte (placeByte s a v) a = v := by
  have h1 := blockBase_le s.cfg a
  have h2 := lt_blockBase_add s.cfg a
  unfold placeByte
  simp only
  split
  · rename_i l hf
    have hlen : l.data.length = blockSize s.cfg := (lineOk_of_find hs.2 hf).2.1
    rw [readByte_present (l := ⟨l.data.set (a - blockBase s.cfg a) v, l.modified⟩) (find_put_same _ _ _)]
    simp only
    rw [List.getD_eq_getElem _ _ (by simp; omega), List.getElem_set_self]
  · rename_i hf
    exact (readByte_absent (s := { s with mem := s.mem.write a v }) hf).trans (read_write_same hs.1 _ _)

/-- Placing a byte leaves memory's other bytes alone. -/
theorem read_placeByte_other (s : State) {a b : Nat} (v : Byte) (h : b ≠ a) :
    (placeByte s a v).mem.read b = s.mem.read b := by
  unfold placeByte
  simp only
  split <;> exact read_write_other _ _ h

/-- Placing a byte leaves every other read alone. -/
theorem readByte_placeByte_other {s : State} (hs : Storage s) {a b : Nat} (v : Byte) (h : b ≠ a) :
    readByte (placeByte s a v) b = readByte s b := by
  have h1 := blockBase_le s.cfg a
  have h2 := lt_blockBase_add s.cfg a
  have h3 := blockBase_le s.cfg b
  have h4 := lt_blockBase_add s.cfg b
  unfold placeByte
  simp only
  split
  · rename_i l hf
    by_cases hb : blockBase s.cfg b = blockBase s.cfg a
    · have hlen : l.data.length = blockSize s.cfg := (lineOk_of_find hs.2 hf).2.1
      rw [readByte_present (s := s) (l := l) (by rw [hb]; exact hf),
        readByte_present (l := ⟨l.data.set (a - blockBase s.cfg a) v, l.modified⟩)
          (by simp only [hb]; exact find_put_same _ _ _)]
      simp only
      rw [List.getD_eq_getElem _ _ (by simp; omega), List.getD_eq_getElem _ _ (by omega), List.getElem_set_ne (by omega)]
    · exact readByte_congr rfl (find_put_other _ _ hb) (read_write_other _ _ h)
  · exact readByte_congr rfl rfl (read_write_other _ _ h)

end Sys2Proof.Machine
end

