-- ==== Sys2Proof/Laws/PerInstr.lean ====
section
/-! SUPPORT. One statement about every constructor of `Instr`, proved constructor by constructor. -/

namespace Sys2Proof.Laws

/-- The row of spec/opcode_table.json an instruction belongs to: its `match` number. -/
def EncodedWord.matchOf : Instr → BitVec 32
  | .cboInval _ => 0x0000200F#32
  | .cboClean _ => 0x0010200F#32
  | .cboFlush _ => 0x0020200F#32
  | .cboZero _ => 0x0040200F#32

/-- The encoded word is the `match` number of the instruction's row with the register number in bits 19 to 15, and nothing
else. -/
def EncodedWord.Statement (i : Instr) : Prop :=
  encode i = EncodedWord.matchOf i ||| (BitVec.ofNat 32 i.rs1.val <<< 15)

theorem EncodedWord.cboInval (rs1 : Reg) : EncodedWord.Statement (.cboInval rs1) := by
  revert rs1
  unfold EncodedWord.Statement
  decide

theorem EncodedWord.cboClean (rs1 : Reg) : EncodedWord.Statement (.cboClean rs1) := by
  revert rs1
  unfold EncodedWord.Statement
  decide

theorem EncodedWord.cboFlush (rs1 : Reg) : EncodedWord.Statement (.cboFlush rs1) := by
  revert rs1
  unfold EncodedWord.Statement
  decide

theorem EncodedWord.cboZero (rs1 : Reg) : EncodedWord.Statement (.cboZero rs1) := by
  revert rs1
  unfold EncodedWord.Statement
  decide

end Sys2Proof.Laws
end

