-- ==== Sys2Proof/Tests/Slice0.lean ====
section
/-! SUPPORT. The model's own tests, and one witness for each statement that has hypotheses. Expected values come from
spec/95_test_vectors.md (V, K, L and P numbers), from spec/30_encoding.md and from hand calculation from the rules named. -/

namespace Sys2Proof.Tests

open Sys2Proof.Machine

/-! ## Small machines -/

/-- Blocks of four bytes. -/
def tinyConfig : Config := { Config.atReset with cbLog := 2 }

/-- No S-mode, and so no `scmocontrol`. -/
def noSConfig : Config := { tinyConfig with haveS := false }

/-- No hypervisor modes. -/
def noHConfig : Config := { tinyConfig with haveH := false }

/-- Inputs with every page table on (or every one `Bare`) and one write permission for every mechanism. -/
def inputsOf (cur eff : Mode) (bare : Bool) (w : Wx) : Inputs :=
  { resetInputs with
    curMode := cur
    effMode := eff
    satpBare := bare
    hgatpBare := bare
    vsatpBare := bare
    granted := ⟨w, w, w, w⟩ }

/-- A machine whose block at 8 is modified in the cache, whose block at 12 is cached unmodified, with `x10 = 9` and `x11 = 11`
in the block at 8, and `x12 = 16`. -/
def world (c : Config) (inp : Inputs) (m s h v : Word) : State :=
  { State.launch c with
    csrs := ⟨m, s, h, v⟩
    regs := (((State.launch c).regs.set 10 9).set 11 11).set 12 16
    pc := 64
    mem := [(8, 0x11#8), (9, 0x12#8), (12, 0x21#8)]
    cache := [(8, ⟨[0xA1#8, 0xA2#8, 0xA3#8, 0xA4#8], true⟩), (12, ⟨[0x21#8, 0#8, 0#8, 0#8], false⟩)]
    inputs := inp }

/-- The same with the current and the effective mode equal and every page table on. -/
def tiny (mode : Mode) (m s h v : Word) : State := world tinyConfig (inputsOf mode mode false .W1) m s h v

/-- A state with another fault on every address, for one instruction in one effective mode. -/
def withFault (s : State) (op : CmoOp) (f : MemFault) : State :=
  { s with inputs := { s.inputs with otherFaults := [⟨op, s.inputs.effMode, 0, 100, f⟩] } }

/-- The next state of an execution. -/
def answer : Host.Outcome State Fault Refusal → Option State
  | .next t => some t
  | .fault _ => none
  | .refused _ => none

theorem eq_next_of_answer {o : Host.Outcome State Fault Refusal} {t : State} (h : answer o = some t) : o = .next t := by
  cases o <;> simp_all [answer]

/-- What an execution ends with: the trap, where there is one. -/
def trapOf (o : Host.Outcome State Fault Refusal) : Option (Option Trap) := (answer o).map State.trap

/-! ## Decoding: words written out from the fields of 30_encoding.md R60 and R61 -/

theorem test_decode_inval : decodeWord 0b000000000000_01010_010_00000_0001111#32 = .ok (.cboInval 10) := by decide
theorem test_decode_clean : decodeWord 0b000000000001_11111_010_00000_0001111#32 = .ok (.cboClean 31) := by decide
theorem test_decode_flush : decodeWord 0b000000000010_00001_010_00000_0001111#32 = .ok (.cboFlush 1) := by decide
theorem test_decode_zero : decodeWord 0b000000000100_10000_010_00000_0001111#32 = .ok (.cboZero 16) := by decide
/-- 30_encoding.md R66: a neighbouring `imm12` is no CMO instruction. -/
theorem test_decode_other_imm : decodeWord 0b000000000011_01010_010_00000_0001111#32 = .error .otherImm12 := by decide
/-- `FENCE.I` (`funct3 = 001`) is no CMO instruction. -/
theorem test_decode_fence_i : decodeWord 0x0000100F#32 = .error .otherFunct3 := by decide
theorem test_encode_zero : encode (.cboZero 10) = 0x0045200F#32 := by decide
theorem test_bytes_little : decodeBytes .little [0x0F#8, 0x20#8, 0x15#8, 0x00#8, 0x55#8] = .ok (.cboClean 10, [0x55#8]) := by decide
theorem test_bytes_big : decodeBytes .big [0x00#8, 0x15#8, 0x20#8, 0x0F#8] = .ok (.cboClean 10, []) := by decide
theorem test_bytes_short : decodeBytes .little [0x0F#8, 0x20#8, 0x15#8] = .error .truncated := by decide
theorem test_table_word : decodeTableWord 32 0x0025200F = some (.cboFlush 10) := by decide
theorem test_table_word_refused : decodeTableWord 32 0 = none := by decide

/-! ## WellFormed: a term that each check refuses, and one that all accept -/

theorem test_wf_line : (AsmLine.mk .inval (some 0) 31).wf = true ∧ assemble ⟨.inval, none, 31⟩ = some (.cboInval 31) := by decide
theorem test_wf_offset_refused : (AsmLine.mk .inval (some 4) 10).offsetOk = false ∧ assemble ⟨.inval, some 4, 10⟩ = none := by decide
theorem test_wf_base_refused : (AsmLine.mk .zero none 32).baseOk = false ∧ assemble ⟨.zero, none, 32⟩ = none := by decide
theorem test_wf_config : Config.atReset.wf = true := by decide
theorem test_wf_reset_refused : ({ Config.atReset with resetValue := ⟨4, 0, 0, 0⟩ } : Config).resetOk = false := by decide
theorem test_wf_addr_refused :
    ({ Config.atReset with addr := ⟨some 0x320, some 0x320, none, none⟩ } : Config).addrOk = false := by decide
theorem test_wf_block_refused : ({ Config.atReset with cbLog := 65 } : Config).blockOk = false := by decide

theorem test_wf_enc_refused :
    ({ Config.atReset with enc := .table [⟨.zero, 0x7F#32, 0x0B#32, 7⟩, ⟨.inval, 0xFF#32, 0x0B#32, 7⟩] } : Config).encOk = false ∧
      ({ Config.atReset with enc := .table [⟨.zero, 0x7F#32, 0x0B#32, 28⟩] } : Config).encOk = false ∧
      ({ Config.atReset with enc := .table [⟨.zero, 0x0F#32, 0x1B#32, 7⟩] } : Config).encOk = false := by decide

/-! ## One step of each instruction -/

/-- V11: a legal `CBO.INVAL` in U-mode whose `scmocontrol` denies it: page fault with `ea`, nothing else. -/
theorem test_inval_page_fault :
    answer (exec (.cboInval 10) (tiny .U 0xF03 0x003 0 0)) =
      some { tiny .U 0xF03 0x003 0 0 with trap := some ⟨.fault .pageFault, some 9⟩ } := by decide

/-- V10, K1: all bits set: the modified copy goes, memory keeps its old bytes. -/
theorem test_inval_exposes_memory :
    (answer (exec (.cboInval 10) (tiny .U 0xF03 0xF03 0 0))).map (fun t => (t.cache, readByte t 9, t.pc)) =
      some ([(12, ⟨[0x21#8, 0#8, 0#8, 0#8], false⟩)], 0x12#8, 68) := by decide

/-- V40, K2: memory gets the four bytes, the copy stays, unmodified. -/
theorem test_clean :
    (answer (exec (.cboClean 11) (tiny .U 0x001 0x001 0 0))).map (fun t => (t.mem, t.cache.find 8)) =
      some ([(8, 0xA1#8), (9, 0xA2#8), (10, 0xA3#8), (11, 0xA4#8), (12, 0x21#8)],
        some ⟨[0xA1#8, 0xA2#8, 0xA3#8, 0xA4#8], false⟩) := by decide

/-- V41: `hcmocontrol.CBME = 0`. -/
theorem test_clean_illegal :
    trapOf (exec (.cboClean 10) (tiny .VS 0x001 0 0 0)) = some (some ⟨.illegalInstruction, none⟩) := by decide

/-- V43, K3. -/
theorem test_flush :
    (answer (exec (.cboFlush 10) (tiny .U 0x001 0x001 0 0))).map (fun t => (t.mem.read 10, t.cache.find 8, readByte t 10)) =
      some (0xA3#8, none, 0xA3#8) := by decide

/-- V57: M-mode is exempt from the CSRs, not from other faults. -/
theorem test_flush_other_fault :
    trapOf (exec (.cboFlush 10) (withFault (tiny .M 0 0 0 0) .flush .accessFault)) =
      some (some ⟨.fault .accessFault, some 9⟩) := by decide

/-- V47, K11: the whole block, below `ea` too; memory is not written. -/
theorem test_zero :
    (answer (exec (.cboZero 11) (tiny .S 0x002 0 0 0))).map (fun t => (readByte t 8, t.cache.find 8, t.mem.read 8)) =
      some (0#8, some ⟨[0#8, 0#8, 0#8, 0#8], true⟩, 0x11#8) := by decide

/-- K10: an absent block. -/
theorem test_zero_absent :
    (answer (exec (.cboZero 12) (tiny .M 0 0 0 0))).map (fun t => (t.cache.find 16, t.mem)) =
      some (some ⟨[0#8, 0#8, 0#8, 0#8], true⟩, (tiny .M 0 0 0 0).mem) := by decide

/-- A word placed at the program counter runs as the first instruction after reset. -/
theorem test_step_after_reset :
    (answer (step (State.reset.withFetchWord 32 0x0045200F))).map (fun t => (t.pc, t.cache.map Prod.fst)) =
      some (4, [0]) := by decide

/-- From reset with nothing placed the first word is 0, which is no CMO instruction. -/
theorem test_step_reset_refused : answer (step State.reset) = none := by decide

/-- L1: a write of every bit leaves the six defined fields. -/
theorem test_csr_write : readCsr (writeCsr (tiny .M 0 0 0 0) .mcmocontrol 0xFFFFFFFF) .mcmocontrol = 0xF03 := by decide

/-! ## Witnesses: the hypotheses of each statement are met together -/

/-- A `CBO.CLEAN (x10)` at the program counter. -/
def armed : State := (tiny .M 0 0 0 0).withFetchWord 32 0x0015200F

/-- The same with events before this step. -/
def armedBusy : State := { armed with pending := [[.setReg 11 7, .evict 12], []] }

theorem witness_StepRunsTheDecodedInstruction :
    modesPresent (boundary armed) = true ∧ (boundary armed).trap = none ∧ (boundary armed).cfg.cmoImplemented = true ∧
      decodeEnc (boundary armed).cfg.enc (fetchWord (boundary armed)) = .ok (.cboClean 10) ∧ armed.pending = [] := by decide

theorem witness_StepRunsTheDecodedInstruction_busy :
    modesPresent (boundary armedBusy) = true ∧ (boundary armedBusy).trap = none ∧
      (boundary armedBusy).cfg.cmoImplemented = true ∧
      decodeEnc (boundary armedBusy).cfg.enc (fetchWord (boundary armedBusy)) = .ok (.cboClean 10) ∧
      armedBusy.pending = [.setReg 11 7, .evict 12] :: [[]] := by decide

/-- Another encoding: one word for `CBO.ZERO`, its base register in bits 11 to 7. The numbers are this test's own. -/
def otherEncoding : Config := { tinyConfig with enc := .table [⟨.zero, 0xFFFFF07F#32, 0x0000000B#32, 7⟩] }

/-- 30_encoding.md R59: what a word means is the parameter `ENC`'s. -/
theorem test_other_encoding :
    decodeEnc otherEncoding.enc 0x0000050B#32 = .ok (.cboZero 10) ∧
      decodeEnc otherEncoding.enc 0x0045200F#32 = .error .notInEnc ∧
      (answer (step ((world otherEncoding (inputsOf .M .M false .W1) 0 0 0 0).withFetchWord 32 0x0000050B))).map
        (fun t => readByte t 8) = some 0#8 := by decide

theorem witness_EncodingIsAParameter :
    otherEncoding.enc = .table [⟨.zero, 0xFFFFF07F#32, 0x0000000B#32, 7⟩] ∧ otherEncoding.encOk = true ∧
      otherEncoding.wf = true ∧ ({ tinyConfig with enc := .table opcodeTableRows } : Config).encOk = true := by decide

theorem witness_PlacedInstructionRunsNext_other :
    let s := world otherEncoding (inputsOf .M .M false .W1) 0 0 0 0
    s.Inv ∧ s.cfg.cmoImplemented = true ∧ decodeEnc s.cfg.enc 0x0000050B#32 = .ok (.cboZero 10) := by decide

theorem witness_PlacedInstructionRunsNext :
    (tiny .M 0 0 0 0).Inv ∧ (tiny .M 0 0 0 0).cfg.cmoImplemented = true ∧ (tiny .M 0 0 0 0).cfg.enc = .default ∧
      ({ tiny .VU 0xF03 0xF03 0xF03 0xF03 with
          pc := 10, pending := [[.takeTrap]], trap := some ⟨.illegalInstruction, none⟩ } : State).Inv := by decide

/-- The extension is absent. -/
def withoutCmo : State := State.launch { tinyConfig with cmoImplemented := false }

theorem witness_StepRefusesOtherWords :
    modesPresent (boundary withoutCmo) = true ∧ (boundary withoutCmo).trap = none ∧
      (boundary withoutCmo).cfg.cmoImplemented = false := by decide

theorem witness_StepRefusesOtherWords_word :
    modesPresent (boundary State.reset) = true ∧ (boundary State.reset).trap = none ∧
      (boundary State.reset).cfg.cmoImplemented = true ∧
      decodeEnc (boundary State.reset).cfg.enc (fetchWord (boundary State.reset)) = .error .otherOpcode := by decide

/-- A trap stands untaken. -/
def trapped : State := takeException (tiny .U 0 0 0 0) .illegalInstruction none

theorem witness_StepWaitsForTheTrapToBeTaken :
    modesPresent (boundary trapped) = true ∧ (boundary trapped).trap ≠ none := by decide

theorem witness_StepFaultsInAnAbsentMode :
    Mode.present noHConfig (boundary (world noHConfig (inputsOf .VS .M false .W1) 0 0 0 0)).inputs.curMode = false ∧
      Mode.present noHConfig (boundary (world noHConfig (inputsOf .M .VU false .W1) 0 0 0 0)).inputs.effMode = false := by
  decide

theorem witness_ManagementIllegalExactlyByCBME :
    csrField (tiny .S 0x002 0 0 0) .mcmocontrol .CBME = false ∧ (tiny .S 0x002 0 0 0).inputs.curMode ≠ .M ∧
      (∀ c, governs c Mode.VU = true → csrField (tiny .VU 0x001 0 0x001 0x001) c .CBME = true) := by
  refine ⟨by decide, by decide, fun c => ?_⟩
  cases c <;> decide

theorem witness_EnableBitsAndInvwBitsAreIndependent :
    let s := tiny .U 0x001 0xF01 0 0
    let csrs : PerCsr Word := ⟨0xF01, 0x001, 0x100, 0⟩
    (∀ c, fieldOf (csrs.get c) .CBME = fieldOf (s.csrs.get c) .CBME ∧
      fieldOf (csrs.get c) .CBWE = fieldOf (s.csrs.get c) .CBWE) ∧
      (inputsOf .U .M true .W0).curMode = s.inputs.curMode := by
  refine ⟨fun c => ?_, rfl⟩
  cases c <;> decide

theorem witness_EnableBitsAndInvwBitsAreIndependent_second :
    let s := tiny .U 0xF01 0xF01 0 0
    let csrs : PerCsr Word := ⟨0xF03, 0xF03, 1, 2⟩
    (∀ c, ∀ f ∈ [Field.INVW0I, .INVW0E, .INVW1I, .INVW1E], fieldOf (csrs.get c) f = fieldOf (s.csrs.get c) f) ∧
      Legal s (.cboInval 10) ∧ Legal { s with csrs := csrs } (.cboInval 10) := by
  refine ⟨fun c => ?_, by decide, by decide⟩
  cases c <;> decide

theorem witness_MachineModeIsGovernedByNoCsr :
    (tiny .M 0 0 0 0).inputs.curMode = .M ∧ (tiny .M 0 0 0 0).inputs.effMode = .M ∧ Legal (tiny .M 0 0 0 0) (.cboInval 10) ∧
      NoOtherFault (tiny .M 0 0 0 0) (.cboInval 10) := by decide

/-- V54: illegal, with another fault besides. -/
theorem witness_IllegalComesBeforeEveryFault :
    ¬ Legal (withFault (tiny .S 0xF00 0 0 0) .inval .pageFault) (.cboInval 10) ∧
      otherFault (withFault (tiny .S 0xF00 0 0 0) .inval .pageFault) .inval 9 = some .pageFault := by decide

/-- V31, V23, V2: a fault of each kind. -/
theorem witness_InvalFaultsExactlyByEnableBits :
    (∀ s ∈ [tiny .VU 0x003 0 0x003 0x003, tiny .VS 0xF03 0 0x003 0, tiny .S 0x001 0 0 0],
      Legal s (.cboInval 10) ∧ NoOtherFault s (.cboInval 10)) ∧
    trapOf (exec (.cboInval 10) (tiny .VU 0x003 0 0x003 0x003)) = some (some ⟨.fault .pageFault, some 9⟩) ∧
    trapOf (exec (.cboInval 10) (tiny .VS 0xF03 0 0x003 0)) = some (some ⟨.fault .guestPageFault, some 9⟩) ∧
    trapOf (exec (.cboInval 10) (tiny .S 0x001 0 0 0)) = some (some ⟨.fault .accessFault, some 9⟩) := by decide

/-- V11, V28, V29, V15, V30: a fault of each kind, in each mode that gives it. -/
theorem witness_LaterFaultOnlyIfEarlierMechanismsPassed :
    (∀ s ∈ [tiny .U 0xF03 0x003 0 0, tiny .VU 0xF03 0 0xF03 0x003, tiny .VU 0xF03 0 0x003 0xF03, tiny .U 0x003 0xF03 0 0,
        tiny .VS 0x003 0 0xF03 0, tiny .VU 0x003 0 0xF03 0xF03], NoOtherFault s (.cboInval 10)) ∧
    Takes (.cboInval 10) (tiny .U 0xF03 0x003 0 0) (.fault .pageFault) (some 9) ∧
    Takes (.cboInval 10) (tiny .VU 0xF03 0 0xF03 0x003) (.fault .pageFault) (some 9) ∧
    Takes (.cboInval 10) (tiny .VU 0xF03 0 0x003 0xF03) (.fault .guestPageFault) (some 9) ∧
    Takes (.cboInval 10) (tiny .U 0x003 0xF03 0 0) (.fault .accessFault) (some 9) ∧
    Takes (.cboInval 10) (tiny .VS 0x003 0 0xF03 0) (.fault .accessFault) (some 9) ∧
    Takes (.cboInval 10) (tiny .VU 0x003 0 0xF03 0xF03) (.fault .accessFault) (some 9) :=
  ⟨by decide, eq_next_of_answer (by decide), eq_next_of_answer (by decide), eq_next_of_answer (by decide),
    eq_next_of_answer (by decide), eq_next_of_answer (by decide), eq_next_of_answer (by decide)⟩

/-- V2, V15, VS with `m = 0x003`, V30: `mcmocontrol` is the first to fail. -/
theorem witness_LaterFaultOnlyIfEarlierMechanismsPassed_access :
    (Legal (tiny .S 0x001 0 0 0) (.cboInval 10) ∧ passes (tiny .S 0x001 0 0 0) .mcmocontrol = false) ∧
    (Legal (tiny .U 0x003 0xF03 0 0) (.cboInval 10) ∧ passes (tiny .U 0x003 0xF03 0 0) .scmocontrol = true ∧
      passes (tiny .U 0x003 0xF03 0 0) .mcmocontrol = false) ∧
    (Legal (tiny .VS 0x003 0 0xF03 0) (.cboInval 10) ∧ passes (tiny .VS 0x003 0 0xF03 0) .hcmocontrol = true ∧
      passes (tiny .VS 0x003 0 0xF03 0) .mcmocontrol = false) ∧
    (Legal (tiny .VU 0x003 0 0xF03 0xF03) (.cboInval 10) ∧ passes (tiny .VU 0x003 0 0xF03 0xF03) .vscmocontrol = true ∧
      passes (tiny .VU 0x003 0 0xF03 0xF03) .hcmocontrol = true ∧
      passes (tiny .VU 0x003 0 0xF03 0xF03) .mcmocontrol = false) := by decide

/-- V11, V28, V23, V29: a mechanism that fails. -/
theorem witness_LaterFaultOnlyIfEarlierMechanismsPassed_failing :
    (Legal (tiny .U 0xF03 0x003 0 0) (.cboInval 10) ∧ passes (tiny .U 0xF03 0x003 0 0) .scmocontrol = false) ∧
    (Legal (tiny .VU 0xF03 0 0xF03 0x003) (.cboInval 10) ∧
      passes (tiny .VU 0xF03 0 0xF03 0x003) .vscmocontrol = false) ∧
    (Legal (tiny .VS 0xF03 0 0x003 0) (.cboInval 10) ∧ passes (tiny .VS 0xF03 0 0x003 0) .hcmocontrol = false) ∧
    (Legal (tiny .VU 0xF03 0 0x003 0xF03) (.cboInval 10) ∧
      passes (tiny .VU 0xF03 0 0x003 0xF03) .vscmocontrol = true ∧
      passes (tiny .VU 0xF03 0 0x003 0xF03) .hcmocontrol = false) := by decide

/-- V55, V57, V56, V51. -/
theorem witness_OtherFaultIsReported :
    (Legal (withFault (tiny .U 1 1 0 0) .clean .accessFault) (.cboClean 10) ∧
      otherFault (withFault (tiny .U 1 1 0 0) .clean .accessFault) .clean 9 = some .accessFault) ∧
    (Legal (withFault (tiny .M 0 0 0 0) .flush .accessFault) (.cboFlush 10) ∧
      otherFault (withFault (tiny .M 0 0 0 0) .flush .accessFault) .flush 9 = some .accessFault) ∧
    (Legal (withFault (tiny .S 2 0 0 0) .zero .pageFault) (.cboZero 10) ∧
      otherFault (withFault (tiny .S 2 0 0 0) .zero .pageFault) .zero 9 = some .pageFault) ∧
    (Legal (withFault (tiny .U 0xF03 0xF03 0 0) .inval .pageFault) (.cboInval 10) ∧
      otherFault (withFault (tiny .U 0xF03 0xF03 0 0) .inval .pageFault) .inval 9 = some .pageFault ∧
      invalPasses (withFault (tiny .U 0xF03 0xF03 0 0) .inval .pageFault) = true) := by decide

/-- V53, V52. -/
theorem witness_CombineReportsOneOfTheTwo :
    (Legal (withFault (tiny .U 0x003 0xF03 0 0) .inval .pageFault) (.cboInval 10) ∧
      otherFault (withFault (tiny .U 0x003 0xF03 0 0) .inval .pageFault) .inval 9 = some .pageFault ∧
      invalFault (withFault (tiny .U 0x003 0xF03 0 0) .inval .pageFault) .U = some .accessFault) ∧
    (otherFault (withFault (tiny .U 0xF03 0x003 0 0) .inval .pageFault) .inval 9 = some .pageFault ∧
      invalFault (withFault (tiny .U 0xF03 0x003 0 0) .inval .pageFault) .U = some .pageFault) := by decide

/-- V10 and V9. -/
theorem witness_InvalOperationExactlyByInvalidateBits :
    (∀ s ∈ [tiny .U 0xF03 0xF03 0 0, tiny .U 0xF03 0xA03 0 0],
      Legal s (.cboInval 10) ∧ NoOtherFault s (.cboInval 10) ∧ invalPasses s = true) ∧
    invalFormula (tiny .U 0xF03 0xF03 0 0) = true ∧ invalFormula (tiny .U 0xF03 0xA03 0 0) = false := by decide

theorem witness_InvalThatFlushesIsCboFlush :
    Legal (tiny .U 0xF03 0xA03 0 0) (.cboInval 10) ∧ NoOtherFault (tiny .U 0xF03 0xA03 0 0) (.cboFlush 10) ∧
      NoOtherFault (tiny .U 0xF03 0xA03 0 0) (.cboInval 10) ∧ invalPasses (tiny .U 0xF03 0xA03 0 0) = true ∧
      invalFormula (tiny .U 0xF03 0xA03 0 0) = false := by decide

/-- One state for each CSR: V2, V11, V23, V28 with the other `E` bit clear too. -/
theorem witness_ClearingEnableBitsMakesInvalTrap :
    ∀ p ∈ [(Csr.mcmocontrol, tiny .S 0x503 0 0 0), (.scmocontrol, tiny .U 0xF03 0x503 0 0),
        (.hcmocontrol, tiny .VS 0xF03 0 0x503 0), (.vscmocontrol, tiny .VU 0xF03 0 0xF03 0x503)],
      governs p.1 p.2.inputs.effMode = true ∧ mechanismBare p.2 p.1 = false ∧ csrField p.2 p.1 .INVW0E = false ∧
        csrField p.2 p.1 .INVW1E = false ∧ Legal p.2 (.cboInval 10) := by decide

theorem witness_ClearingInvalidateBitsMakesInvalFlush :
    ∀ p ∈ [(Csr.mcmocontrol, tiny .S 0xA03 0 0 0), (.scmocontrol, tiny .U 0xF03 0xA03 0 0),
        (.hcmocontrol, tiny .VS 0xF03 0 0xA03 0), (.vscmocontrol, tiny .VU 0xF03 0 0xF03 0xA03)],
      p.2.Inv ∧ governs p.1 p.2.inputs.effMode = true ∧ csrField p.2 p.1 .INVW0I = false ∧
        csrField p.2 p.1 .INVW1I = false ∧ Legal p.2 (.cboInval 10) ∧ NoOtherFault p.2 (.cboInval 10) ∧
        invalPasses p.2 = true := by decide

/-- V4's value against V10's, with a retiring `CBO.INVAL` that invalidates. -/
theorem witness_SettingBitsOnlyPermits :
    let s := tiny .S 0xC01 0 0 0
    let csrs : PerCsr Word := ⟨0xF03, 0x001, 0, 0x100⟩
    (∀ c, s.csrs.get c &&& csrs.get c = s.csrs.get c) ∧ Legal s (.cboInval 10) ∧
      trapOf (exec (.cboInval 10) s) = some none ∧ invalOp s s.inputs.effMode = .invalidate := by
  refine ⟨fun c => ?_, by decide, by decide, by decide⟩
  cases c <;> decide

theorem witness_CleanWritesTheBlockBackAndKeepsIt :
    (tiny .U 1 1 0 0).Inv ∧ Legal (tiny .U 1 1 0 0) (.cboClean 10) ∧ NoOtherFault (tiny .U 1 1 0 0) (.cboClean 10) := by decide

theorem witness_FlushWritesTheBlockBackAndDropsIt :
    (tiny .U 1 1 0 0).Inv ∧ Legal (tiny .U 1 1 0 0) (.cboFlush 10) ∧ NoOtherFault (tiny .U 1 1 0 0) (.cboFlush 10) := by decide

theorem witness_InvalidateDropsTheBlockUnwritten :
    Legal (tiny .VU 0xF03 0 0xF03 0xF03) (.cboInval 10) ∧ NoOtherFault (tiny .VU 0xF03 0 0xF03 0xF03) (.cboInval 10) ∧
      invalPasses (tiny .VU 0xF03 0 0xF03 0xF03) = true ∧ invalFormula (tiny .VU 0xF03 0 0xF03 0xF03) = true := by decide

theorem witness_ZeroWritesTheWholeBlock :
    (tiny .U 2 2 0 0).Inv ∧ Legal (tiny .U 2 2 0 0) (.cboZero 11) ∧ NoOtherFault (tiny .U 2 2 0 0) (.cboZero 11) := by decide

theorem witness_SideEffectsAreOnCachesMemoryAndOutcome :
    exec (.cboZero 11) (tiny .M 0 0 0 0) = .next (retire (blockZero (tiny .M 0 0 0 0) 8)) :=
  eq_next_of_answer (by decide)

/-- A 32-bit machine at the top of its address space. -/
def atTop32 : State := { State.launch { tinyConfig with xlen := .rv32 } with pc := 0xFFFFFFFC }

theorem witness_ProgramCounterAdvancesModuloXlen :
    (answer (exec (.cboClean 0) atTop32)).map (fun t => (t.trap, t.pc)) = some (none, 0) := by decide

theorem witness_AddressesOfOneBlockNameOneOperation :
    let s := tiny .U 0xF03 0xF03 0 0
    NoOtherFault s (CmoOp.inval.instr 10) ∧ NoOtherFault s (CmoOp.inval.instr 11) ∧ invalPasses s = true ∧
      blockOf s (CmoOp.inval.instr 10) = blockOf s (CmoOp.inval.instr 11) := by decide

theorem witness_OnlyInvalReadsInvwBits :
    let csrs : PerCsr Word := ⟨0xF01, 0x101, 0, 0⟩
    (Instr.cboClean 10).op ≠ .inval ∧
      ∀ c, fieldOf (csrs.get c) .CBME = fieldOf ((tiny .U 1 1 0 0).csrs.get c) .CBME ∧
        fieldOf (csrs.get c) .CBWE = fieldOf ((tiny .U 1 1 0 0).csrs.get c) .CBWE := by
  refine ⟨by decide, fun c => ?_⟩
  cases c <;> decide

theorem witness_OnlyGoverningCsrsAreConsulted :
    let s := tiny .VS 0xF03 0 0xF03 0
    let csrs : PerCsr Word := ⟨0xF03, 0xF03, 0xF03, 0x503⟩
    ∀ c, governs c s.inputs.curMode = true ∨ governs c s.inputs.effMode = true → csrs.get c = s.csrs.get c := by
  intro s csrs c
  cases c <;> decide

/-- V58, V59, `CBME` and `CBWE` clear, and a flush. -/
theorem witness_AbsentScmocontrolDropsOut :
    let w := fun m => world noSConfig (inputsOf .U .U false .W1) m 0 0 0
    ((w 0xF03).cfg.cmoImplemented = true ∧ (w 0xF03).cfg.haveS = false ∧ (w 0xF03).inputs.curMode = .U ∧
      (w 0xF03).inputs.effMode = .U ∧ NoOtherFault (w 0xF03) (.cboInval 10)) ∧
      fieldOf (w 0x002).csrs.mcmocontrol .CBME = false ∧ fieldOf (w 0x001).csrs.mcmocontrol .CBWE = false ∧
      (fieldOf (w 0x003).csrs.mcmocontrol .CBME = true ∧ selectedE (w 0x003) .mcmocontrol = false) ∧
      (fieldOf (w 0xF03).csrs.mcmocontrol .CBME = true ∧ selectedE (w 0xF03) .mcmocontrol = true ∧
        machineI (w 0xF03) = true) ∧
      (fieldOf (w 0xA03).csrs.mcmocontrol .CBME = true ∧ selectedE (w 0xA03) .mcmocontrol = true ∧
        machineI (w 0xA03) = false) := by decide

theorem witness_InvalidateMayExposeStaleData :
    let s := tiny .U 0xF03 0xF03 0 0
    s.Inv ∧ Legal s (.cboInval 10) ∧ NoOtherFault s (.cboInval 10) ∧ invalPasses s = true ∧ invalFormula s = true ∧
      s.cache.find (blockOf s (.cboInval 10)) = some ⟨[0xA1#8, 0xA2#8, 0xA3#8, 0xA4#8], true⟩ ∧
      InBlock s (blockOf s (.cboInval 10)) 8 ∧ InBlock s (blockOf s (.cboInval 10)) 11 := by decide

/-- P1, with a write back of the block at 12 before and a fill of the cleaned block between. -/
theorem witness_CleanOrFlushThenInvalidateLosesNothing :
    let s := tiny .U 0xF03 0xF03 0 0
    let t1 := retire (cacheFlush (applyEvents s [.writeBack 12]) 8)
    let t3 := retire (cacheInval (applyEvents t1 [.fill 9]) 8)
    s.Inv ∧ [Event.writeBack 12].all Event.spontaneous = true ∧ [Event.fill 9].all Event.spontaneous = true ∧
      exec (.cboFlush 10) (applyEvents s [.writeBack 12]) = .next t1 ∧ t1.trap = none ∧
      exec (.cboInval 11) (applyEvents t1 [.fill 9]) = .next t3 ∧ t3.trap = none ∧
      operandBlock s (effectiveAddress s 10) = operandBlock s (effectiveAddress s 11) :=
  ⟨by decide, by decide, by decide, eq_next_of_answer (by decide), by decide, eq_next_of_answer (by decide), by decide,
    by decide⟩

theorem witness_SpontaneousTransitionsKeepEveryRead :
    (tiny .M 0 0 0 0).Inv ∧ [Event.fill 16, .writeBack 8, .evict 12, .writeBackPart 8 [1]].all Event.spontaneous = true := by
  decide

/-- A store of three bytes from the last byte of the block at 8 into the block at 12. -/
theorem witness_StoreReadsBackAcrossBlocks :
    (tiny .M 0 0 0 0).Inv ∧
      memRead (memWrite (tiny .M 0 0 0 0) 11 [1#8, 2#8, 3#8]) 10 5 = [0xA3#8, 1#8, 2#8, 3#8, 0#8] := by decide

theorem witness_ZeroThenInvalidateExposesOldMemory :
    let s := tiny .U 0xF03 0xF03 0 0
    let t := retire (blockZero s 8)
    s.Inv ∧ exec (.cboZero 10) s = .next t ∧ t.trap = none ∧ exec (.cboInval 10) t = .next (retire (cacheInval t 8)) ∧
      (retire (cacheInval t 8)).trap = none ∧ invalFormula t = true ∧ InBlock s (blockOf s (.cboZero 10)) 8 :=
  ⟨by decide, eq_next_of_answer (by decide), by decide, eq_next_of_answer (by decide), by decide, by decide, by decide⟩

theorem witness_ManagementOperationsAreIdempotent :
    (tiny .M 0 0 0 0).Inv ∧ ∀ d, (tiny .M 0 0 0 0).cache.find 12 ≠ some ⟨d, true⟩ := by
  refine ⟨by decide, fun d h => ?_⟩
  have hf : (tiny .M 0 0 0 0).cache.find 12 = some ⟨[0x21#8, 0#8, 0#8, 0#8], false⟩ := by decide
  rw [hf] at h
  simp at h

/-- The same machine under the sub-block alternative. -/
def subBlockWorld : State := world { tinyConfig with cacheModel := .subBlock } (inputsOf .M .M false .W1) 0 0 0 0

theorem witness_PartialWriteBackGivesPerByteDraws :
    subBlockWorld.Inv ∧ subBlockWorld.cfg.cacheModel = .subBlock ∧
      subBlockWorld.cache.find (blockBase subBlockWorld.cfg 9) = some ⟨[0xA1#8, 0xA2#8, 0xA3#8, 0xA4#8], true⟩ ∧
      0 < blockSize subBlockWorld.cfg ∧ 3 < blockSize subBlockWorld.cfg := by decide

theorem witness_CsrWriteIsLegalised :
    Csr.present (tiny .M 0 0 0 0).cfg .hcmocontrol = true ∧
      (tiny .M 0 0 0 0).cfg.legal.get .hcmocontrol = .mask definedBits ∧
      Csr.present (State.launch noHConfig).cfg .hcmocontrol = false := by decide

theorem witness_DefaultCsrAccessByMode : tinyConfig.csrAccess = Config.defaultAccess := by decide

/-- Every number assigned, with redirection. The numbers are this test's own. -/
def numbered : Config :=
  { tinyConfig with addr := ⟨some 0x700, some 0x500, some 0x600, some 0x200⟩, vsRedirect := true }

theorem witness_CsrNumbersNameTheirRegisters :
    numbered.addrOk = true ∧ numbered.addr.get .scmocontrol = some 0x500#12 ∧
      resolveCsr numbered .VS (.number 0x500) = some .vscmocontrol ∧
      resolveCsr numbered .S (.number 0x500) = some .scmocontrol := by decide

/-- `armed` with a CSR write before the step. -/
def armedWrite : State := { armed with pending := [[.csrWrite (.named .mcmocontrol) 0xFFF]] }

theorem witness_CsrWriteIsSeenByTheNextInstruction :
    armedWrite.pending = [.csrWrite (.named .mcmocontrol) 0xFFF] :: [] ∧
      csrAccessOk armedWrite.cfg .mcmocontrol armedWrite.inputs.curMode = true ∧ armedWrite.cfg.cmoImplemented = true ∧
      armedWrite.trap = none ∧ modesPresent armedWrite = true ∧
      decodeEnc (boundary armedWrite).cfg.enc (fetchWord (boundary armedWrite)) = .ok (.cboClean 10) := by decide

/-- An access that may reach its register, one that the mode may not make, and one whose number is not assigned. -/
theorem witness_CsrAccessesActWhereTheModeMay :
    accessibleCsr (tiny .S 0 7 0 0) (.named .scmocontrol) = some .scmocontrol ∧
      accessibleCsr (tiny .U 0 0 0 0) (.named .scmocontrol) = none ∧
      accessibleCsr (tiny .M 0 0 0 0) (.number 0x500) = none ∧ (5 : Reg) ≠ 0 ∧ (6 : Reg) ≠ 5 ∧
      readReg (applyEvent (tiny .S 0 0xA03 0 0) (.csrRead (.named .scmocontrol) 5)) 5 = 0xA03 := by decide

theorem witness_RegisterZeroIsHardwired : (31 : Reg) ≠ 0 ∧ (0 : Reg) ≠ 31 := by decide

theorem witness_CauseNumbersByKindAndVariant :
    (tiny .M 0 0 0 0).cfg.invalFaultKind = .store ∧
      (State.launch { tinyConfig with invalFaultKind := .load }).cfg.invalFaultKind = .load := by decide

theorem witness_OnlyAccessesChangeRegisters :
    (answer (step { armed with pending := [[.supply (inputsOf .U .U true .W1), .fill 8]] })).isSome = true ∧
      ([Event.supply (inputsOf .U .U true .W1), .fill 8]).all (fun e => !e.writesCsr) = true ∧
      ([Event.supply (inputsOf .U .U true .W1), .fill 8]).all (fun e => !e.writesReg) = true := by decide

theorem witness_TrapKeepsTheControlRegisters :
    exec (.cboClean 10) (tiny .S 0 0 0 0) = .next (takeException (tiny .S 0 0 0 0) .illegalInstruction none) ∧
      (takeException (tiny .S 0 0 0 0) .illegalInstruction none).trap ≠ none :=
  ⟨eq_next_of_answer (by decide), by decide⟩

theorem witness_LaunchIsLegal : numbered.wf = true ∧ Config.atReset.wf = true := by decide

theorem witness_StepKeepsTheStateLegal :
    armedBusy.Inv ∧ (answer (step armedBusy)).isSome = true := by decide

theorem witness_ParametersNeverChange : (answer (step armed)).isSome = true := by decide

end Sys2Proof.Tests
end

section
/-! SUPPORT. The statements of 10_state.md about what a step leaves alone: in M-mode the control registers, in every mode all
but memory, cache, program counter and outcome. -/

namespace Sys2Proof.Machine

/-! ## M-mode -/

/-- No control register governs M-mode (10_state.md R26). -/
theorem legal_of_curMode_M {s : State} (h : s.inputs.curMode = .M) (i : Instr) : Legal s i := by
  intro c _ hg
  rw [h] at hg
  cases c <;> cases hg

/-- A legal instruction takes no illegal instruction exception: it faults or retires. -/
theorem not_takes_illegal_of_legal {s : State} {i : Instr} (h : Legal s i) : ¬ Takes i s .illegalInstruction none := by
  intro ht
  rcases exec_cases i s with ⟨hn, -⟩ | ⟨f, -, -, he⟩ | ⟨-, -, he⟩
  · exact hn h
  · simpa using congrArg State.trap (Host.Outcome.next.inj (he.symm.trans ht))
  · simpa using congrArg State.trap (Host.Outcome.next.inj (he.symm.trans ht))

/-- In effective mode M a `CBO.INVAL` invalidates. -/
theorem operated_inval_of_effMode_M {s : State} (h : s.inputs.effMode = .M) (r : Reg) :
    operated s (.cboInval r) = cacheInval s (blockOf s (.cboInval r)) := by
  simp [operated, invalOperate, h, invalOp, invalidates, blockOf, Instr.rs1]

/-- In effective mode M no reported fault depends on the control registers. -/
theorem reportedFault_with_csrs_of_effMode_M {s : State} (h : s.inputs.effMode = .M) (i : Instr) (csrs : PerCsr Word) :
    reportedFault { s with csrs := csrs } i = reportedFault s i := by
  cases i with
  | cboInval r =>
    simp only [reportedFault, invalReportedFault, h, invalFault]
    rfl
  | cboClean r => rfl
  | cboFlush r => rfl
  | cboZero r => rfl

/-- In effective mode M no operation depends on the control registers. -/
theorem operated_with_csrs_of_effMode_M {s : State} (h : s.inputs.effMode = .M) (i : Instr) (csrs : PerCsr Word) :
    operated { s with csrs := csrs } i = { operated s i with csrs := csrs } := by
  cases i with
  | cboInval r =>
    rw [operated_inval_of_effMode_M h, operated_inval_of_effMode_M (s := { s with csrs := csrs }) h]
    rfl
  | cboClean r => exact (cacheClean_with s csrs s.inputs (operandBlock s (effectiveAddress s r))).trans (by simp [operated])
  | cboFlush r => exact (cacheFlush_with s csrs s.inputs (operandBlock s (effectiveAddress s r))).trans (by simp [operated])
  | cboZero r => exact (blockZero_with s csrs s.inputs (operandBlock s (effectiveAddress s r))).trans (by simp [operated])

/-- A change of the state that commutes with both endings of an execution and with the operation, and that neither legality
nor the reported fault nor the operand sees, commutes with the execution. -/
theorem exec_commutes (g : State → State) {s : State} {i : Instr}
    (hexc : ∀ t k info, takeException (g t) k info = g (takeException t k info))
    (hret : ∀ t, retire (g t) = g (retire t))
    (hea : effectiveAddress (g s) i.rs1 = effectiveAddress s i.rs1)
    (hl : Legal (g s) i ↔ Legal s i) (hf : reportedFault (g s) i = reportedFault s i)
    (ho : operated (g s) i = g (operated s i)) :
    ∃ t, exec i s = .next t ∧ exec i (g s) = .next (g t) := by
  rcases exec_cases i s with ⟨hn, he⟩ | ⟨f, hs, hr, he⟩ | ⟨hs, hr, he⟩
  · exact ⟨_, he, by rw [exec_of_not_legal (mt hl.1 hn), hexc]⟩
  · exact ⟨_, he, by simp only [exec_of_legal (hl.2 hs), hf, hr, hea, hexc]⟩
  · exact ⟨_, he, by simp only [exec_of_legal (hl.2 hs), hf, hr, ho, hret]⟩

/-- Settles O15: no CSR governs M-mode, `CBO.INVAL` has neither a control fault nor a flush there, and so legality, fault and
operation are the same for any CSR values. -/
theorem machineModeIsGovernedByNoCsr : Obligations.MachineModeIsGovernedByNoCsr := by
  refine ⟨fun s i hc => not_takes_illegal_of_legal (legal_of_curMode_M hc i), fun s r he hl hn => ?_,
    fun s i csrs hc he => ?_⟩
  · have hf : reportedFault s (.cboInval r) = none := by rw [reportedFault_inval hn, he]; rfl
    rw [exec_of_legal hl, hf, operated_inval_of_effMode_M he]
  · exact exec_commutes ({ · with csrs := csrs }) (fun _ _ _ => rfl) (fun _ => rfl) rfl
      (iff_of_true (legal_of_curMode_M (s := { s with csrs := csrs }) hc i) (legal_of_curMode_M hc i))
      (reportedFault_with_csrs_of_effMode_M he i csrs) (operated_with_csrs_of_effMode_M he i csrs)

/-! ## The frame of every instruction -/

/-- Settles O31: an exception sets the outcome only, and retiring adds the program counter to what the operation changes,
which is memory and cache (`operated_frame`). -/
theorem sideEffectsAreOnCachesMemoryAndOutcome : Obligations.SideEffectsAreOnCachesMemoryAndOutcome := by
  intro i s t h
  rcases exec_cases i s with ⟨-, he⟩ | ⟨f, -, -, he⟩ | ⟨-, -, he⟩
  · cases he.symm.trans h
    rfl
  · cases he.symm.trans h
    rfl
  · cases he.symm.trans h
    rw [operated_frame s i]
    rfl

end Sys2Proof.Machine
end

section
/-! SUPPORT. The statements of 40_cbo_management.md about the control bits: when a management instruction is illegal, when a
`CBO.INVAL` faults, and which operation it performs. -/

namespace Sys2Proof.Machine

/-! ## Illegal instruction -/

/-- The illegal instruction exception is taken exactly when some governing CSR forbids the instruction. -/
theorem takes_illegal_iff_not_legal (s : State) (i : Instr) : Takes i s .illegalInstruction none ↔ ¬ Legal s i :=
  ⟨fun ht hl => not_takes_illegal_of_legal hl ht, exec_of_not_legal⟩

/-- `mcmocontrol` governs every mode below M (10_state.md R26). -/
theorem governs_mcmocontrol {m : Mode} (h : m ≠ .M) : governs .mcmocontrol m = true := by
  cases m with
  | M => exact absurd rfl h
  | S | U | VS | VU => rfl

/-- Settles O12: the exception is taken exactly when the instruction is not `Legal`; the formula of the current mode and the
bit in every governing CSR, of which `mcmocontrol` is one below M, are two readings of `Legal`. -/
theorem managementIllegalExactlyByCBME : Obligations.ManagementIllegalExactlyByCBME := by
  intro s r i hi
  have hz : i.op ≠ .zero := by rcases hi with rfl | rfl | rfl <;> simp [Instr.op]
  have hfield : enableField i.op = .CBME := by rcases hi with rfl | rfl | rfl <;> rfl
  have hformula : Takes i s .illegalInstruction none ↔ illegalCBM s s.inputs.curMode = true := by
    rw [takes_illegal_iff_not_legal, legal_iff_illegalCBM s i hz, Bool.not_eq_false]
  have hlegal : Legal s i ↔ ∀ c, governs c s.inputs.curMode = true → csrField s c .CBME = true := by
    simp [Legal, hfield]
  refine ⟨hformula, ?_, fun hm hc => ?_⟩
  · rw [takes_illegal_iff_not_legal, not_not, hlegal]
  · rw [takes_illegal_iff_not_legal, hlegal]
    exact fun h => Bool.false_ne_true (hm.symm.trans (h .mcmocontrol (governs_mcmocontrol hc)))

/-! ## Faults of `CBO.INVAL` -/

/-- A mechanism lets the access through by its selected enable bit or by a `Bare` page table. -/
theorem passes_eq (s : State) (c : Csr) : passes s c = (selectedE s c || mechanismBare s c) := by
  rw [passes, enableBit_eq_selectedE]

/-- A legal `CBO.INVAL` with no other fault takes exactly the fault that the control registers give. -/
theorem takes_fault_iff_invalFault {s : State} {r : Reg} (hl : Legal s (.cboInval r)) (hn : NoOtherFault s (.cboInval r))
    (f : MemFault) :
    Takes (.cboInval r) s (.fault f) (some (effectiveAddress s r)) ↔ invalFault s s.inputs.effMode = some f := by
  rw [Takes, exec_of_legal hl, reportedFault_inval hn]
  cases invalFault s s.inputs.effMode with
  | none => simp [retire]
  | some k => simp [takeException, Instr.rs1]

/-- One link of the fault chain: a mechanism that does not pass gives its own fault, one that passes leaves it to the rest. -/
theorem faultLink_eq_some_iff (pass : Bool) (own f : MemFault) (rest : Option MemFault) :
    (if !pass then some own else rest) = some f ↔ (pass = false ∧ own = f) ∨ (pass = true ∧ rest = some f) := by
  cases pass <;> simp

/-- Settles O17: in each mode the chain of mechanisms reports a kind of fault exactly when the mechanism that gives it is the
first that does not pass. -/
theorem invalFaultsExactlyByEnableBits : Obligations.InvalFaultsExactlyByEnableBits := by
  intro s r hl hn
  simp only [takes_fault_iff_invalFault hl hn]
  cases s.inputs.effMode with
  | M => simp [invalFault]
  | S | U | VS | VU =>
    simp only [invalFault, faultLink_eq_some_iff]
    simp [passes_eq, mechanismBare, and_assoc]

/-! ## Operation of `CBO.INVAL` -/

/-- A legal `CBO.INVAL` that faults nowhere operates and retires. -/
theorem exec_inval_of_passes {s : State} {r : Reg} (hl : Legal s (.cboInval r)) (hn : NoOtherFault s (.cboInval r))
    (hp : invalPasses s = true) : exec (.cboInval r) s = .next (retire (operated s (.cboInval r))) := by
  rw [exec_of_legal hl, reportedFault_inval hn, (invalPasses_iff s).1 hp]

/-- A `CBO.INVAL` operates by the "Invalidate" formula of the effective mode. -/
theorem operated_inval (s : State) (r : Reg) :
    operated s (.cboInval r) =
      if invalFormula s then cacheInval s (blockOf s (.cboInval r)) else cacheFlush s (blockOf s (.cboInval r)) := by
  rw [operated, invalOperate, invalOp, invalidates_eq_formula]
  cases invalFormula s <;> rfl

/-- Settles O21: a `CBO.INVAL` that faults nowhere retires with its operation, which the formula chooses. -/
theorem invalOperationExactlyByInvalidateBits : Obligations.InvalOperationExactlyByInvalidateBits := by
  intro s r hl hn hp
  rw [exec_inval_of_passes hl hn hp, operated_inval]
  exact ⟨fun hi => by simp [hi], fun hi => by simp [hi]⟩

end Sys2Proof.Machine
end

section
/-! SUPPORT. The statements of 41_cbo_write.md about the write enable bits: when a `CBO.ZERO` is illegal, and that this is
independent of when a management instruction is. -/

namespace Sys2Proof.Machine

/-! ## Independence of `CBME` and `CBWE` -/

/-- The launch state of the reset configuration in S-mode, with the given value in `mcmocontrol`. -/
def supervisorWith (m : Word) : State :=
  { State.launch Config.atReset with
    csrs := ⟨m, 0, 0, 0⟩
    inputs := { resetInputs with curMode := .S } }

/-- Of the CSRs, `mcmocontrol` alone governs S-mode (10_state.md R26), so its bit for the instruction decides. -/
theorem legal_supervisorWith_iff (m : Word) (i : Instr) :
    Legal (supervisorWith m) i ↔ fieldOf m (enableField i.op) = true := by
  have hm : csrField (supervisorWith m) .mcmocontrol (enableField i.op) = fieldOf m (enableField i.op) := rfl
  have hmode : (supervisorWith m).inputs.curMode = .S := rfl
  simp [Legal, hmode, Csr.all, governs, hm]

/-- An instruction is illegal in `supervisorWith m` exactly when its enable bit is clear in `m`. -/
theorem takes_illegal_supervisorWith_iff (m : Word) (i : Instr) :
    Takes i (supervisorWith m) .illegalInstruction none ↔ fieldOf m (enableField i.op) = false := by
  rw [takes_illegal_iff_not_legal, legal_supervisorWith_iff, Bool.not_eq_true]

/-- Settles O13: the exception is taken exactly when the instruction is not `Legal`, which for `CBO.ZERO` is the `CBWE`
formula; the independence shows in S-mode, with only `CBWE` and with only `CBME` set in `mcmocontrol`. -/
theorem zeroIllegalExactlyByCBWE : Obligations.ZeroIllegalExactlyByCBWE := by
  refine ⟨fun s r => ?_, ⟨supervisorWith 0x002, 0, by decide, ?_, ?_⟩, ⟨supervisorWith 0x001, 0, by decide, ?_, ?_⟩⟩
  · have hformula : Takes (.cboZero r) s .illegalInstruction none ↔ illegalCBW s s.inputs.curMode = true := by
      rw [takes_illegal_iff_not_legal, legal_iff_illegalCBW s (.cboZero r) rfl, Bool.not_eq_false]
    exact hformula
  all_goals
    rw [takes_illegal_supervisorWith_iff]
    decide

end Sys2Proof.Machine
end

section
/-! SUPPORT. The statement of 60_exceptions.md about the order of the three faults: which mechanism of the effective mode each
kind of fault names, and which mechanisms have passed by then (R93). -/

namespace Sys2Proof.Machine

/-- A fault is taken by a legal instruction whose access reports it. -/
theorem reportedFault_of_takes_fault {s : State} {i : Instr} {f : MemFault} {info : Option Word}
    (h : Takes i s (.fault f) info) : Legal s i ∧ reportedFault s i = some f := by
  have htrap {t : State} (he : exec i s = .next t) : t.trap = some ⟨.fault f, info⟩ :=
    congrArg State.trap (Host.Outcome.next.inj (he.symm.trans h))
  rcases exec_cases i s with ⟨-, he⟩ | ⟨k, hl, hk, he⟩ | ⟨-, -, he⟩
  · simpa using htrap he
  · have hkf : k = f := by simpa using congrArg (Option.map Trap.kind) (htrap he)
    exact ⟨hl, hkf ▸ hk⟩
  · simpa using htrap he

/-- With no other fault, the fault a `CBO.INVAL` takes is the one the control registers give. -/
theorem invalFault_of_takes_fault {s : State} {r : Reg} {f : MemFault} {info : Option Word}
    (hn : NoOtherFault s (.cboInval r)) (h : Takes (.cboInval r) s (.fault f) info) :
    invalFault s s.inputs.effMode = some f :=
  (reportedFault_inval hn).symm.trans (reportedFault_of_takes_fault h).2

/-! ## The mechanism behind each kind of fault -/

/-- A page fault comes from the first mechanism of VU-mode or of U-mode. -/
theorem invalFault_eq_pageFault_iff (s : State) (m : Mode) :
    invalFault s m = some .pageFault ↔
      (m = .VU ∧ passes s .vscmocontrol = false) ∨ (m = .U ∧ passes s .scmocontrol = false) := by
  cases m with
  | M => simp [invalFault]
  | S | U | VS | VU =>
    simp only [invalFault, faultLink_eq_some_iff]
    simp

/-- A guest-page fault comes from `hcmocontrol`: the first mechanism of VS-mode, the second of VU-mode. -/
theorem invalFault_eq_guestPageFault_iff (s : State) (m : Mode) :
    invalFault s m = some .guestPageFault ↔
      passes s .hcmocontrol = false ∧ (m = .VS ∨ (m = .VU ∧ passes s .vscmocontrol = true)) := by
  cases m with
  | M => simp [invalFault]
  | S | U | VS | VU =>
    simp only [invalFault, faultLink_eq_some_iff]
    simp [and_comm]

/-- An access fault comes from `mcmocontrol`, the last mechanism of every mode below M. -/
theorem invalFault_eq_accessFault_iff (s : State) (m : Mode) :
    invalFault s m = some .accessFault ↔
      m ≠ .M ∧ passes s .mcmocontrol = false ∧
        (m = .U → passes s .scmocontrol = true) ∧
        (m = .VS → passes s .hcmocontrol = true) ∧
        (m = .VU → passes s .vscmocontrol = true ∧ passes s .hcmocontrol = true) := by
  cases m with
  | M => simp [invalFault]
  | S | U | VS | VU =>
    simp only [invalFault, faultLink_eq_some_iff]
    simp [and_comm, and_assoc, and_left_comm]

/-- Settles O18: a fault taken is the one the control registers give, a legal `CBO.INVAL` takes that fault, and each kind of
fault fixes the first mechanism that fails. -/
theorem laterFaultOnlyIfEarlierMechanismsPassed : Obligations.LaterFaultOnlyIfEarlierMechanismsPassed := by
  intro s r info hn
  refine ⟨fun ht => (invalFault_eq_pageFault_iff s _).1 (invalFault_of_takes_fault hn ht),
    fun ht => (invalFault_eq_guestPageFault_iff s _).1 (invalFault_of_takes_fault hn ht),
    fun ht => ((invalFault_eq_accessFault_iff s _).1 (invalFault_of_takes_fault hn ht)).2, fun hl => ?_⟩
  simp only [takes_fault_iff_invalFault hl hn, invalFault_eq_pageFault_iff, invalFault_eq_guestPageFault_iff,
    invalFault_eq_accessFault_iff]
  refine ⟨fun hU hs => .inr ⟨hU, hs⟩, fun hVU hv => .inl ⟨hVU, hv⟩, fun hVS hh => ⟨hh, .inl hVS⟩,
    fun hVU hv hh => ⟨hh, .inr ⟨hVU, hv⟩⟩, fun hS hm => ?_, fun hU hs hm => ?_, fun hVS hh hm => ?_,
    fun hVU hv hh hm => ?_⟩
  · simp [hS, hm]
  · simp [hU, hs, hm]
  · simp [hVS, hh, hm]
  · simp [hVU, hv, hh, hm]

end Sys2Proof.Machine
end

section
/-! SUPPORT. The statements of 30_encoding.md: the decoder against the encoder, against the match and mask numbers, under another
`ENC`, and over byte sequences; and the assembler. -/

namespace Sys2Proof

/-! ## The five fields -/

/-- A word is the five fields of 30_encoding.md R60, one after the other. -/
theorem eq_append_iff_fields (w : BitVec 32) (imm : BitVec 12) (rs1 : BitVec 5) (f3 : BitVec 3) (rd : BitVec 5)
    (opc : BitVec 7) :
    w = imm ++ rs1 ++ f3 ++ rd ++ opc ↔
      fieldImm12 w = imm ∧ fieldRs1 w = rs1 ∧ fieldFunct3 w = f3 ∧ fieldRd w = rd ∧ fieldOpcode w = opc := by
  unfold fieldImm12 fieldRs1 fieldFunct3 fieldRd fieldOpcode
  constructor
  · rintro rfl
    refine ⟨?_, ?_, ?_, ?_, ?_⟩ <;> ext i hi <;> simp <;> grind
  · rintro ⟨rfl, rfl, rfl, rfl, rfl⟩
    ext i hi
    simp
    grind

theorem regOfBits_eq_iff (b : BitVec 5) (r : Reg) : regOfBits b = r ↔ b = BitVec.ofFin (w := 5) r := by
  constructor
  · rintro rfl; rfl
  · rintro rfl; rfl

/-- Settles O3: a word decodes to an instruction exactly when every field holds that instruction's value, and the encoding is
the word of these fields. -/
theorem decodeAndEncodeAgree : Obligations.DecodeAndEncodeAgree := by
  intro w i
  rw [decodeWord_eq_ok_iff, encode, eq_append_iff_fields, regOfBits_eq_iff]
  constructor
  · rintro ⟨hopc, hf3, hrd, himm, hrs1⟩
    exact ⟨himm, hrs1, hf3, hrd, hopc⟩
  · rintro ⟨himm, hrs1, hf3, hrd, hopc⟩
    exact ⟨hopc, hf3, hrd, himm, hrs1⟩

/-- Settles O1: the six words have the fields of their instruction; each neighbour fails one test. -/
theorem encodingTableWordsDecode : Obligations.EncodingTableWordsDecode := by
  unfold Obligations.EncodingTableWordsDecode
  decide

/-! ## Match and mask -/

/-- The match number of a row is the word of its fields with register 0. -/
theorem rowMatch_eq (op : CmoOp) : rowMatch op = imm12Of op ++ 0#5 ++ funct3Cbo ++ 0#5 ++ opcodeMiscMem := by
  cases op <;> decide

/-- The mask keeps every field but `rs1`, which it clears: a word matches a row exactly when every other field holds the row's
value. -/
theorem and_mask_eq_rowMatch_iff (w : BitVec 32) (op : CmoOp) :
    w &&& 0xFFF07FFF#32 = rowMatch op ↔
      fieldOpcode w = opcodeMiscMem ∧ fieldFunct3 w = funct3Cbo ∧ fieldRd w = 0#5 ∧ fieldImm12 w = imm12Of op := by
  have hkeep {lo n : Nat} (h : (0xFFF07FFF#32).extractLsb' lo n = BitVec.allOnes n) :
      (w &&& 0xFFF07FFF#32).extractLsb' lo n = w.extractLsb' lo n := by
    rw [BitVec.extractLsb'_and, h, BitVec.and_allOnes]
  have himm : fieldImm12 (w &&& 0xFFF07FFF#32) = fieldImm12 w := hkeep (by decide)
  have hf3 : fieldFunct3 (w &&& 0xFFF07FFF#32) = fieldFunct3 w := hkeep (by decide)
  have hrd : fieldRd (w &&& 0xFFF07FFF#32) = fieldRd w := hkeep (by decide)
  have hopc : fieldOpcode (w &&& 0xFFF07FFF#32) = fieldOpcode w := hkeep (by decide)
  have hrs1 : fieldRs1 (w &&& 0xFFF07FFF#32) = 0#5 := by
    rw [fieldRs1, BitVec.extractLsb'_and]
    exact BitVec.and_zero
  rw [rowMatch_eq, eq_append_iff_fields, himm, hrs1, hf3, hrd, hopc]
  tauto

/-- A word decodes to an operation exactly when it matches the operation's row, and the register is the one the field names. -/
theorem decodeWord_eq_ok_iff_row (w : BitVec 32) (op : CmoOp) (r : Reg) :
    decodeWord w = .ok (op.instr r) ↔ w &&& 0xFFF07FFF#32 = rowMatch op ∧ regOfBits (fieldRs1 w) = r := by
  rw [decodeWord_eq_ok_iff, and_mask_eq_rowMatch_iff, op_instr, rs1_instr]
  simp only [and_assoc]

/-- Settles O2: the mask clears the register field alone, so a match is a word whose other fields are the row's. -/
theorem decodeAgreesWithMaskAndMatch : Obligations.DecodeAgreesWithMaskAndMatch := by
  intro w op r
  have hreg : regOfBits (fieldRs1 w) = r ↔ (w >>> 15).toNat % 32 = r.val := by
    simp [Fin.ext_iff, regOfBits, fieldRs1]
  rw [decodeWord_eq_ok_iff_row, hreg]

/-! ## `ENC` as a parameter -/

/-- In a list whose rows are apart from each other, the first row that reads an instruction from a word is the only one. -/
theorem findSome_read_eq_some_iff {rows : List EncRow} (hrows : rows.Pairwise fun r q => r.apart q = true)
    (w : BitVec 32) (i : Instr) :
    rows.findSome? (fun r => r.read w) = some i ↔ ∃ r ∈ rows, r.read w = some i := by
  induction rows with
  | nil => simp
  | cons r rows ih =>
    obtain ⟨hr, htail⟩ := List.pairwise_cons.1 hrows
    rw [List.findSome?_cons]
    cases hread : r.read w with
    | none => simp [ih htail, hread]
    | some j =>
      have hmatch : w &&& r.mask = r.pattern := ((read_eq_some_iff r w j).1 hread).1
      have hother : ∀ q ∈ rows, q.read w ≠ some i := fun q hq hqi =>
        not_match_of_apart (hr q hq) hmatch ((read_eq_some_iff q w i).1 hqi).1
      simpa [hread] using fun q hq hqi => absurd hqi (hother q hq)

/-- Rows that are apart from each other map a word exactly as the row that it matches says. -/
theorem decodeEnc_table_iff_row {rows : List EncRow} (hrows : rows.Pairwise fun r q => r.apart q = true)
    (w : BitVec 32) (i : Instr) :
    decodeEnc (.table rows) w = .ok i ↔
      ∃ r ∈ rows, w &&& r.mask = r.pattern ∧ i = r.op.instr (regOfBits (w.extractLsb' r.rs1Low 5)) := by
  simp only [decodeEnc_table_eq_ok_iff, findSome_read_eq_some_iff hrows, read_eq_some_iff]

/-- The four rows of the opcode table map a word as the default does. -/
theorem decodeEnc_opcodeTableRows_iff (w : BitVec 32) (i : Instr) :
    decodeEnc (.table opcodeTableRows) w = .ok i ↔ decodeWord w = .ok i := by
  have hdefault : decodeWord w = .ok i ↔
      w &&& 0xFFF07FFF#32 = rowMatch i.op ∧ regOfBits (fieldRs1 w) = i.rs1 := by
    rw [← decodeWord_eq_ok_iff_row, instr_op_rs1]
  have hrow (op : CmoOp) : i = op.instr (regOfBits (fieldRs1 w)) ↔ op = i.op ∧ regOfBits (fieldRs1 w) = i.rs1 := by
    constructor
    · rintro rfl; simp
    · rintro ⟨rfl, h⟩; rw [h, instr_op_rs1]
  have hmem (op : CmoOp) : op ∈ [CmoOp.inval, .clean, .flush, .zero] := by cases op <;> decide
  rw [decodeEnc_table_iff_row (by decide), hdefault]
  simp only [opcodeTableRows, List.mem_map, exists_exists_and_eq_and]
  constructor
  · rintro ⟨op, -, hmatch, hi⟩
    obtain ⟨rfl, hreg⟩ := (hrow op).1 hi
    exact ⟨hmatch, hreg⟩
  · rintro ⟨hmatch, hreg⟩
    exact ⟨i.op, hmem _, hmatch, (hrow _).2 ⟨rfl, hreg⟩⟩

/-- Settles O4: in a well-formed table the rows are apart, so at most one reads a word; the four rows of the opcode table are
the default's match and mask numbers. -/
theorem encodingIsAParameter : Obligations.EncodingIsAParameter := by
  refine ⟨fun c rows w i henc hok => ?_, decodeEnc_opcodeTableRows_iff, decodeEnc_implementation_eq_ok_iff⟩
  have hrows : rows.Pairwise fun r q => r.apart q = true := by
    simp only [Config.encOk, henc, Bool.and_eq_true, decide_eq_true_eq] at hok
    exact hok.2
  rw [henc, decodeEnc_table_iff_row hrows]

/-! ## Byte sequences -/

/-- Four bytes are the bytes of a word exactly when they make it. -/
theorem eq_bytesOfWord_iff (o : ByteOrder) (b0 b1 b2 b3 : Byte) (w : BitVec 32) :
    [b0, b1, b2, b3] = bytesOfWord o w ↔ wordOfBytes o b0 b1 b2 b3 = w := by
  cases o <;> simp only [bytesOfWord, wordOfBytes, List.reverse_cons, List.reverse_nil, List.nil_append, List.cons_append]
  all_goals
    constructor
    · intro h
      simp only [List.cons.injEq, and_true] at h
      obtain ⟨rfl, rfl, rfl, rfl⟩ := h
      ext i hi
      simp
      grind
    · rintro rfl
      simp only [List.cons.injEq, and_true]
      refine ⟨?_, ?_, ?_, ?_⟩ <;> ext i hi <;> simp <;> grind

/-- A word has four bytes. -/
theorem bytesOfWord_eq_cons (o : ByteOrder) (w : BitVec 32) : ∃ b0 b1 b2 b3, bytesOfWord o w = [b0, b1, b2, b3] := by
  cases o <;> exact ⟨_, _, _, _, rfl⟩

/-- A sequence of at least four bytes decodes as the word that the first four make. -/
theorem decodeBytes_eq_ok_iff (o : ByteOrder) (b0 b1 b2 b3 : Byte) (tail rest : List Byte) (i : Instr) :
    decodeBytes o (b0 :: b1 :: b2 :: b3 :: tail) = .ok (i, rest) ↔
      decodeWord (wordOfBytes o b0 b1 b2 b3) = .ok i ∧ tail = rest := by
  simp only [decodeBytes]
  cases decodeWord (wordOfBytes o b0 b1 b2 b3) <;> simp

/-- Settles O5: a sequence that decodes has four bytes in front, and these are the bytes of the word they make. -/
theorem bytesDecodeInEitherOrder : Obligations.BytesDecodeInEitherOrder := by
  intro o bytes rest i
  have hfront (b0 b1 b2 b3 : Byte) :
      decodeWord (wordOfBytes o b0 b1 b2 b3) = .ok i ↔ [b0, b1, b2, b3] = encodeBytes o i := by
    rw [decodeAndEncodeAgree, encodeBytes, eq_bytesOfWord_iff]
  constructor
  · intro h
    match bytes with
    | b0 :: b1 :: b2 :: b3 :: tail =>
      obtain ⟨hw, rfl⟩ := (decodeBytes_eq_ok_iff o b0 b1 b2 b3 tail rest i).1 h
      rw [← (hfront b0 b1 b2 b3).1 hw]
      rfl
    | [] | [_] | [_, _] | [_, _, _] => cases h
  · rintro rfl
    obtain ⟨b0, b1, b2, b3, hb⟩ := bytesOfWord_eq_cons o (encode i)
    rw [encodeBytes, hb]
    exact (decodeBytes_eq_ok_iff o b0 b1 b2 b3 rest rest i).2 ⟨(hfront b0 b1 b2 b3).2 hb.symm, rfl⟩

/-! ## Assembly lines -/

/-- Settles O6: a line is well formed exactly when its offset is absent or zero and its register exists, and it then names
that operation on that register. -/
theorem assemblyOffsetMustBeZero : Obligations.AssemblyOffsetMustBeZero := by
  intro a i
  have hoffset : a.offsetOk = true ↔ a.offset = none ∨ a.offset = some 0 := by simp [AsmLine.offsetOk]
  by_cases hbase : a.base < 32
  · have hinstr : a.op.instr ⟨a.base, hbase⟩ = i ↔ a.base = i.rs1.val ∧ i.op = a.op := by
      constructor
      · rintro rfl; simp
      · rintro ⟨hb, hop⟩
        rw [← hop, show (⟨a.base, hbase⟩ : Reg) = i.rs1 from Fin.ext hb, instr_op_rs1]
    simp [assemble, AsmLine.wf, AsmLine.baseOk, hbase, hoffset, hinstr]
  · have hne : a.base ≠ i.rs1.val := fun h => hbase (h ▸ i.rs1.isLt)
    simp [assemble, hbase, hne]

end Sys2Proof
end

section
/-! SUPPORT. The statements about a step: what its boundary gives, what it runs or refuses, and what every step keeps. -/

namespace Sys2Proof.Machine

/-! ## The boundary -/

/-- The boundary applies the next batch of events, which is empty where nothing is pending. -/
theorem boundary_eq_applyEvents (s : State) :
    boundary s = applyEvents { s with tick := s.tick + 1, pending := s.pending.tail } (s.pending.headD []) := by
  rcases boundary_cases s with ⟨hp, hb⟩ | ⟨es, rest, hp, hb⟩
  · rw [hb]
    simp only [hp, List.tail_nil, List.headD_nil, applyEvents]
  · rw [hb, hp]
    rfl

@[simp] theorem boundary_cfg (s : State) : (boundary s).cfg = s.cfg := by rw [boundary_eq_applyEvents, applyEvents_cfg]

/-! ## What a step runs -/

/-- With both modes present, no trap untaken and the extension implemented, a step runs what the fetched word decodes to. -/
theorem step_eq_exec {s : State} {i : Instr} (hm : modesPresent (boundary s) = true) (ht : (boundary s).trap = none)
    (hc : (boundary s).cfg.cmoImplemented = true)
    (hd : decodeEnc (boundary s).cfg.enc (fetchWord (boundary s)) = .ok i) : step s = exec i (boundary s) := by
  simp only [step, nextAction, hm, ht, hc, hd]
  rfl

/-- Settles O7: the step is `step_eq_exec`, and the two shapes of the boundary are its definition. -/
theorem stepRunsTheDecodedInstruction : Obligations.StepRunsTheDecodedInstruction := by
  intro s i hm ht hc hd
  refine ⟨step_eq_exec hm ht hc hd, fun hp => ?_, fun es rest hp => ?_⟩
  · simp [boundary, hp]
  · simp [boundary, hp]

/-- Settles O9: the two refusals are the third and the fourth test of the next action. -/
theorem stepRefusesOtherWords : Obligations.StepRefusesOtherWords := by
  intro s hm ht
  refine ⟨fun hc => ?_, fun e hc hd => ?_⟩
  · simp only [step, nextAction, hm, ht, hc]
    rfl
  · simp only [step, nextAction, hm, ht, hc, hd]
    rfl

/-- Settles O10: an untaken trap is the second test of the next action, before any word is fetched. -/
theorem stepWaitsForTheTrapToBeTaken : Obligations.StepWaitsForTheTrapToBeTaken := by
  intro s hm ht
  simp [step, nextAction, hm, Option.isSome_iff_ne_none.2 ht]

/-- Settles O11: the modes are the first test of the next action, under the configuration that the boundary keeps. -/
theorem stepFaultsInAnAbsentMode : Obligations.StepFaultsInAnAbsentMode := by
  intro s h
  have hm : modesPresent (boundary s) = false := by
    rw [modesPresent, boundary_cfg, Bool.and_eq_false_iff]
    exact h
  simp [step, nextAction, hm]

/-! ## What a step changes -/

/-- A step changes its boundary state in memory, cache, program counter and outcome at most. -/
theorem step_frame {s t : State} (h : step s = .next t) :
    t = { boundary s with mem := t.mem, cache := t.cache, pc := t.pc, trap := t.trap } := by
  obtain ⟨-, ⟨-, rfl⟩ | ⟨i, -, -, he⟩⟩ := step_cases h
  · rfl
  · exact sideEffectsAreOnCachesMemoryAndOutcome i _ t he

/-- Settles O58: neither the events of the boundary nor the instruction write the configuration. -/
theorem parametersNeverChange : Obligations.ParametersNeverChange := by
  intro s t h
  rw [step_frame h]
  exact boundary_cfg s

/-- An event that is no CSR write leaves the four CSRs alone. -/
theorem applyEvent_csrs (s : State) {e : Event} (h : e.writesCsr = false) : (applyEvent s e).csrs = s.csrs := by
  cases e with
  | csrWrite r v => cases h
  | csrRead r rd =>
    simp only [applyEvent]
    split <;> simp
  | fill | writeBack | evict | writeBackPart | store | setReg | setPc | supply | takeTrap =>
    simp [applyEvent, cacheWriteBack]

/-- An event that writes no general register leaves the 32 registers alone. -/
theorem applyEvent_regs (s : State) {e : Event} (h : e.writesReg = false) : (applyEvent s e).regs = s.regs := by
  cases e with
  | csrRead r rd => cases h
  | setReg r v => cases h
  | csrWrite r v =>
    simp only [applyEvent]
    split <;> simp
  | fill | writeBack | evict | writeBackPart | store | setPc | supply | takeTrap =>
    simp [applyEvent, cacheWriteBack]

theorem applyEvents_csrs (s : State) {es : List Event} (h : ∀ e ∈ es, e.writesCsr = false) :
    (applyEvents s es).csrs = s.csrs := by
  induction es generalizing s with
  | nil => rfl
  | cons e es ih =>
    obtain ⟨he, hes⟩ := List.forall_mem_cons.1 h
    rw [applyEvents, ih _ hes, applyEvent_csrs s he]

theorem applyEvents_regs (s : State) {es : List Event} (h : ∀ e ∈ es, e.writesReg = false) :
    (applyEvents s es).regs = s.regs := by
  induction es generalizing s with
  | nil => rfl
  | cons e es ih =>
    obtain ⟨he, hes⟩ := List.forall_mem_cons.1 h
    rw [applyEvents, ih _ hes, applyEvent_regs s he]

/-- Settles O53: after the boundary a step writes no register, and in the boundary only the events that say so do. -/
theorem onlyAccessesChangeRegisters : Obligations.OnlyAccessesChangeRegisters := by
  intro s t h
  rw [step_frame h]
  refine ⟨fun hall => ?_, fun hall => ?_⟩
  · rw [boundary_eq_applyEvents]
    exact applyEvents_csrs _ (by simpa using hall)
  · rw [boundary_eq_applyEvents]
    exact applyEvents_regs _ (by simpa using hall)

/-! ## What a CSR write and a register write keep -/

/-- A legal value of a CSR is zero in every reserved bit, whatever the rule. -/
theorem legalise_reserved (rule : LegalRule) (c : Csr) (old new : Word) :
    legalise rule c old new &&& ~~~definedBits = 0 := by
  cases rule <;> simp [legalise, BitVec.and_assoc]

theorem writeCsr_present {s : State} {c : Csr} (h : Csr.present s.cfg c = true) (v : Word) :
    writeCsr s c v =
      { s with
        csrs := s.csrs.set c (legalise (s.cfg.legal.get c) c (s.cfg.xlen.trunc (s.csrs.get c)) (s.cfg.xlen.trunc v)) } := by
  simp [writeCsr, h]

theorem writeCsr_absent {s : State} {c : Csr} (h : Csr.present s.cfg c = false) (v : Word) : writeCsr s c v = s := by
  simp [writeCsr, h]

/-- A CSR write leaves every other CSR alone. -/
theorem get_writeCsr_other (s : State) {c c' : Csr} (h : c' ≠ c) (v : Word) :
    (writeCsr s c v).csrs.get c' = s.csrs.get c' := by
  cases hp : Csr.present s.cfg c with
  | true => rw [writeCsr_present hp, PerCsr.get_set_other _ _ h]
  | false => rw [writeCsr_absent hp]

theorem writeCsr_csrOk {s : State} (hs : ∀ c ∈ Csr.all, csrOk s c) (c : Csr) (v : Word) :
    ∀ c' ∈ Csr.all, csrOk (writeCsr s c v) c' := by
  intro c' hc'
  cases hp : Csr.present s.cfg c with
  | false => rw [writeCsr_absent hp]; exact hs c' hc'
  | true =>
    by_cases hcc : c' = c
    · subst hcc
      rw [writeCsr_present hp]
      refine ⟨?_, fun habs => by simp [hp] at habs⟩
      simp only [PerCsr.get_set_same, legalise_reserved]
    · refine ⟨?_, fun habs => ?_⟩
      · rw [get_writeCsr_other s hcc]; exact (hs c' hc').1
      · rw [get_writeCsr_other s hcc]; exact (hs c' hc').2 (by simpa using habs)

theorem writeReg_regsOk {s : State} (hs : regsOk s) (r : Reg) (v : Word) : regsOk (writeReg s r v) := by
  obtain ⟨hzero, htrunc⟩ := hs
  by_cases hr : r = 0
  · subst hr
    exact ⟨hzero, htrunc⟩
  · have hr0 : r.val ≠ 0 := fun h => hr (Fin.ext h)
    simp only [regsOk, writeReg, hr, if_false]
    refine ⟨?_, fun q => ?_⟩
    · rw [Vector.getElem_set_ne _ _ hr0]
      exact hzero
    · by_cases hq : r.val = q.val
      · simp [hq]
      · rw [Vector.getElem_set_ne _ _ hq]
        exact htrunc q

/-! ## Legal registers -/

/-- CSRs, general registers and program counter are legal. -/
abbrev RegistersOk (s : State) : Prop :=
  (∀ c ∈ Csr.all, csrOk s c) ∧ regsOk s ∧ s.cfg.xlen.trunc s.pc = s.pc

theorem inv_iff (s : State) : s.Inv ↔ Storage s ∧ RegistersOk s ∧ modesPresent s = true := by
  simp only [State.Inv, Storage, RegistersOk, and_assoc]

/-- The legality of the registers looks at four fields only. -/
theorem registersOk_congr {s t : State} (hs : RegistersOk s) (hcfg : t.cfg = s.cfg) (hcsrs : t.csrs = s.csrs)
    (hregs : t.regs = s.regs) (hpc : t.pc = s.pc) : RegistersOk t := by
  unfold RegistersOk csrOk regsOk
  rw [hcfg, hcsrs, hregs, hpc]
  exact hs

theorem writeCsr_registersOk {s : State} (hs : RegistersOk s) (c : Csr) (v : Word) : RegistersOk (writeCsr s c v) := by
  obtain ⟨hcsrs, hregs, hpc⟩ := hs
  refine ⟨writeCsr_csrOk hcsrs c v, ?_, ?_⟩
  · unfold regsOk
    rw [writeCsr_regs, writeCsr_cfg]
    exact hregs
  · rw [writeCsr_cfg, writeCsr_pc]
    exact hpc

theorem writeReg_registersOk {s : State} (hs : RegistersOk s) (r : Reg) (v : Word) : RegistersOk (writeReg s r v) := by
  obtain ⟨hcsrs, hregs, hpc⟩ := hs
  refine ⟨?_, writeReg_regsOk hregs r v, ?_⟩
  · unfold csrOk
    rw [writeReg_csrs, writeReg_cfg]
    exact hcsrs
  · rw [writeReg_cfg, writeReg_pc]
    exact hpc

theorem applyEvent_registersOk {s : State} (hs : RegistersOk s) (e : Event) : RegistersOk (applyEvent s e) := by
  cases e with
  | csrWrite r v =>
    simp only [applyEvent]
    split
    · exact writeCsr_registersOk hs _ v
    · exact hs
  | csrRead r rd =>
    simp only [applyEvent]
    split
    · exact writeReg_registersOk hs rd _
    · exact hs
  | setReg r v => exact writeReg_registersOk hs r v
  | setPc v =>
    obtain ⟨hcsrs, hregs, -⟩ := hs
    exact ⟨hcsrs, hregs, trunc_trunc _ _⟩
  | fill | writeBack | evict | writeBackPart | store | supply | takeTrap =>
    apply registersOk_congr hs <;> simp [applyEvent, cacheWriteBack]

theorem applyEvents_registersOk {s : State} (hs : RegistersOk s) (es : List Event) : RegistersOk (applyEvents s es) := by
  induction es generalizing s with
  | nil => exact hs
  | cons e es ih => exact ih (applyEvent_registersOk hs e)

theorem boundary_registersOk {s : State} (hs : RegistersOk s) : RegistersOk (boundary s) := by
  rw [boundary_eq_applyEvents]
  refine applyEvents_registersOk ?_ _
  exact registersOk_congr hs rfl rfl rfl rfl

/-! ## Legal states -/

/-- Every instruction keeps the state legal. -/
theorem exec_inv {i : Instr} {s t : State} (hs : s.Inv) (h : exec i s = .next t) : t.Inv := by
  obtain ⟨hstore, ⟨hcsrs, hregs, hpc⟩, hmodes⟩ := (inv_iff s).1 hs
  rcases exec_cases i s with ⟨-, he⟩ | ⟨f, -, -, he⟩ | ⟨-, -, he⟩
  · cases he.symm.trans h
    exact hs
  · cases he.symm.trans h
    exact hs
  · cases he.symm.trans h
    rw [inv_iff]
    refine ⟨operated_storage hstore i, ?_⟩
    rw [operated_frame s i]
    exact ⟨⟨hcsrs, hregs, trunc_trunc _ _⟩, hmodes⟩

/-- Settles O57: every event keeps memory, cache and registers legal, an absent mode stops the step, and `exec` keeps a legal
state legal. -/
theorem stepKeepsTheStateLegal : Obligations.StepKeepsTheStateLegal := by
  intro s t hs h
  obtain ⟨hstore, hregs, -⟩ := (inv_iff s).1 hs
  obtain ⟨hmodes, hcase⟩ := step_cases h
  have hb : (boundary s).Inv := (inv_iff _).2 ⟨boundary_storage hstore, boundary_registersOk hregs, hmodes⟩
  obtain ⟨-, rfl⟩ | ⟨i, -, -, he⟩ := hcase
  · exact hb
  · exact exec_inv hb he

end Sys2Proof.Machine
end

section
/-! SUPPORT. The statement about a placed instruction: its bytes are what both sources of a fetch return, and the boundary of the
next step changes nothing that a fetch sees. -/

namespace Sys2Proof.Machine

/-! ## Placed bytes -/

/-- Placing bytes leaves memory and the reads below them alone. -/
theorem read_placeBytes_below {s : State} (hs : Storage s) {a b : Nat} (vs : List Byte) (h : b < a) :
    (placeBytes s a vs).mem.read b = s.mem.read b ∧ readByte (placeBytes s a vs) b = readByte s b := by
  induction vs generalizing s a with
  | nil => exact ⟨rfl, rfl⟩
  | cons v vs ih =>
    obtain ⟨hmem, hcache⟩ := ih (placeByte_storage hs a v) (a := a + 1) (by omega)
    refine ⟨hmem.trans (read_placeByte_other s v (by omega)), hcache.trans (readByte_placeByte_other hs v (by omega))⟩

/-- A placed byte reads back, from memory and through the cache. -/
theorem read_placeBytes_inside {s : State} (hs : Storage s) (a : Nat) (vs : List Byte) {k : Nat} (hk : k < vs.length) :
    (placeBytes s a vs).mem.read (a + k) = vs[k] ∧ readByte (placeBytes s a vs) (a + k) = vs[k] := by
  induction vs generalizing s a k with
  | nil => cases hk
  | cons v vs ih =>
    have ht := placeByte_storage hs a v
    cases k with
    | zero =>
      obtain ⟨hmem, hcache⟩ := read_placeBytes_below ht vs (a := a + 1) (b := a) (by omega)
      exact ⟨hmem.trans (read_placeByte_same hs a v), hcache.trans (readByte_placeByte_same hs a v)⟩
    | succ k =>
      rw [show a + (k + 1) = a + 1 + k by omega]
      exact ih ht (a + 1) (by simpa using hk)

theorem readBytes_placeBytes {s : State} (hs : Storage s) (a : Nat) (vs : List Byte) :
    (placeBytes s a vs).mem.readBytes a vs.length = vs := by
  refine List.ext_getElem (by simp) fun k _ hk => ?_
  rw [getElem_readBytes, (read_placeBytes_inside hs a vs hk).1]

theorem memRead_placeBytes {s : State} (hs : Storage s) (a : Nat) (vs : List Byte) :
    memRead (placeBytes s a vs) a vs.length = vs := by
  refine List.ext_getElem (by simp [memRead]) fun k _ hk => ?_
  simp only [memRead, List.getElem_map, List.getElem_range, (read_placeBytes_inside hs a vs hk).2]

/-! ## The fetch of a placed word -/

@[simp] theorem length_bytesOfWord (o : ByteOrder) (w : BitVec 32) : (bytesOfWord o w).length = 4 := by cases o <;> rfl

/-- The bytes of a word make the word. -/
theorem wordOfList_bytesOfWord (o : ByteOrder) (w : BitVec 32) : wordOfList o (bytesOfWord o w) = w := by
  obtain ⟨b0, b1, b2, b3, hb⟩ := bytesOfWord_eq_cons o w
  rw [hb]
  exact (eq_bytesOfWord_iff o b0 b1 b2 b3 w).1 hb.symm

/-- Where the cache and memory return the same bytes at the fetch address, these are fetched. -/
theorem fetchBytes_of_agree {s : State} {vs : List Byte} (hcache : memRead s (fetchAddr s) 4 = vs)
    (hmem : s.mem.readBytes (fetchAddr s) 4 = vs) : fetchBytes s = vs := by
  simp [fetchBytes, hcache, hmem]

/-! ## A quiet boundary -/

@[simp] theorem quietBoundary_cfg (s : State) : (quietBoundary s).cfg = s.cfg := by unfold quietBoundary; split <;> rfl
@[simp] theorem quietBoundary_csrs (s : State) : (quietBoundary s).csrs = s.csrs := by unfold quietBoundary; split <;> rfl
@[simp] theorem quietBoundary_regs (s : State) : (quietBoundary s).regs = s.regs := by unfold quietBoundary; split <;> rfl
@[simp] theorem quietBoundary_pc (s : State) : (quietBoundary s).pc = s.pc := by unfold quietBoundary; split <;> rfl
@[simp] theorem quietBoundary_mem (s : State) : (quietBoundary s).mem = s.mem := by unfold quietBoundary; split <;> rfl
@[simp] theorem quietBoundary_cache (s : State) : (quietBoundary s).cache = s.cache := by unfold quietBoundary; split <;> rfl
@[simp] theorem quietBoundary_inputs (s : State) : (quietBoundary s).inputs = s.inputs := by unfold quietBoundary; split <;> rfl

/-- After a quiet boundary the next batch of events is empty. -/
theorem headD_quietBoundary_pending (s : State) : (quietBoundary s).pending.headD [] = [] := by
  unfold quietBoundary
  split
  · rename_i h
    rw [h]
    rfl
  · rfl

/-- Where the next batch of events is empty, a boundary moves the step counter and the list of batches only. -/
theorem boundary_of_quiet {s : State} (h : s.pending.headD [] = []) :
    boundary s = { s with tick := s.tick + 1, pending := s.pending.tail } := by
  rw [boundary_eq_applyEvents, h]
  rfl

/-! ## The placed state -/

/-- A whole word is placed. -/
theorem withFetchWord_eq (s : State) (w : BitVec 32) :
    s.withFetchWord 32 w.toNat =
      placeBytes (trapTaken (quietBoundary s)) (fetchAddr s) (bytesOfWord s.cfg.fetchOrder w) := by
  have hw : BitVec.ofNat 32 (w.toNat % 2 ^ 32) = w := by
    rw [Nat.mod_eq_of_lt w.isLt, BitVec.ofNat_toNat, BitVec.setWidth_eq]
  rw [State.withFetchWord, placeInstruction, hw]

/-- No event stands before the step that fetches a placed word. -/
theorem headD_withFetchWord_pending (s : State) (w : BitVec 32) :
    (s.withFetchWord 32 w.toNat).pending.headD [] = [] := by
  rw [withFetchWord_eq, placeBytes_pending]
  exact headD_quietBoundary_pending s

/-- The state a word is placed in has the memory and cache of the old one. -/
theorem trapTaken_quietBoundary_storage {s : State} (hs : Storage s) : Storage (trapTaken (quietBoundary s)) :=
  storage_congr hs (by simp) (by simp) (by simp)

/-- A placed word is the word of the next fetch. -/
theorem fetchWord_boundary_withFetchWord {s : State} (hs : Storage s) (w : BitVec 32) :
    fetchWord (boundary (s.withFetchWord 32 w.toNat)) = w := by
  have ht := trapTaken_quietBoundary_storage hs
  have hpend := headD_withFetchWord_pending s w
  have hcache := memRead_placeBytes ht (fetchAddr s) (bytesOfWord s.cfg.fetchOrder w)
  have hmem := readBytes_placeBytes ht (fetchAddr s) (bytesOfWord s.cfg.fetchOrder w)
  rw [length_bytesOfWord, ← withFetchWord_eq] at hcache hmem
  have haddr : fetchAddr (boundary (s.withFetchWord 32 w.toNat)) = fetchAddr s := by
    rw [boundary_of_quiet hpend, withFetchWord_eq]
    simp [fetchAddr]
  have hbytes : fetchBytes (boundary (s.withFetchWord 32 w.toNat)) = bytesOfWord s.cfg.fetchOrder w := by
    apply fetchBytes_of_agree
    · rw [haddr, boundary_of_quiet hpend]
      exact hcache
    · rw [haddr, boundary_of_quiet hpend]
      exact hmem
  rw [fetchWord, hbytes, boundary_cfg, withFetchWord_eq, placeBytes_cfg, trapTaken_cfg, quietBoundary_cfg,
    wordOfList_bytesOfWord]

/-- Settles O8: the placed state is legal, its boundary is quiet with no trap, and the word placed is the word fetched. -/
theorem placedInstructionRunsNext : Obligations.PlacedInstructionRunsNext := by
  intro s w i hs hc hd
  obtain ⟨hstore, hregs, hmodes⟩ := (inv_iff s).1 hs
  have hdec : decodeEnc s.cfg.enc w = .ok i := by
    rcases hd with hd | ⟨henc, hw⟩
    · exact hd
    · rw [henc, decodeEnc_default]
      exact (decodeAndEncodeAgree w i).2 hw
  have hword := fetchWord_boundary_withFetchWord hstore w
  have hpend := headD_withFetchWord_pending s w
  have hinputs : (s.withFetchWord 32 w.toNat).inputs = s.inputs := by simp [withFetchWord_eq]
  have hcfg : (s.withFetchWord 32 w.toNat).cfg = s.cfg := by simp [withFetchWord_eq]
  have hmodes' : modesPresent (s.withFetchWord 32 w.toNat) = true := by
    rw [modesPresent, hinputs, hcfg]
    exact hmodes
  refine ⟨step_eq_exec ?_ ?_ ?_ ?_, ?_, ?_, (inv_iff _).2 ⟨?_, ?_, hmodes'⟩⟩
  · rw [boundary_of_quiet hpend]
    exact hmodes'
  · rw [boundary_of_quiet hpend, withFetchWord_eq]
    simp
  · rw [boundary_cfg, hcfg, hc]
  · rw [hword, boundary_cfg, hcfg, hdec]
  · rw [withFetchWord_eq]
    simp [SameRegisters]
  · simp [withFetchWord_eq]
  · rw [withFetchWord_eq]
    exact placeBytes_storage (trapTaken_quietBoundary_storage hstore) _ _
  · apply registersOk_congr hregs <;> simp [withFetchWord_eq]

end Sys2Proof.Machine
end

section
/-! SUPPORT. The statements of 10_state.md about the CSRs, the general registers, blocks and the launch state, and of
60_exceptions.md about the cause numbers. -/

namespace Sys2Proof.Machine

/-! ## CSR writes -/

/-- A present CSR holds the legalised value after a write. -/
theorem get_writeCsr_same {s : State} {c : Csr} (hp : Csr.present s.cfg c = true) (v : Word) :
    (writeCsr s c v).csrs.get c =
      legalise (s.cfg.legal.get c) c (s.cfg.xlen.trunc (s.csrs.get c)) (s.cfg.xlen.trunc v) := by
  rw [writeCsr_present hp, PerCsr.get_set_same]

/-- The default rule keeps the defined bits of what is written. -/
theorem get_writeCsr_default {s : State} {c : Csr} (hp : Csr.present s.cfg c = true)
    (hd : s.cfg.legal.get c = .mask definedBits) (v : Word) : (writeCsr s c v).csrs.get c = v &&& definedBits := by
  rw [get_writeCsr_same hp, hd]
  simp [legalise, BitVec.and_assoc]

/-- The defined bits hold the six fields. -/
theorem fieldOf_and_definedBits (v : Word) (f : Field) : fieldOf (v &&& definedBits) f = fieldOf v f := by
  have hbit : definedBits.getLsbD f.bit = true := by cases f <;> decide
  rw [fieldOf, BitVec.getLsbD_and, hbit, Bool.and_true, fieldOf]

/-- A CSR write changes the four CSRs at most. -/
theorem writeCsr_frame (s : State) (c : Csr) (v : Word) : writeCsr s c v = { s with csrs := (writeCsr s c v).csrs } := by
  cases hp : Csr.present s.cfg c with
  | true => rw [writeCsr_present hp]
  | false => rw [writeCsr_absent hp]

/-- Settles O46: every rule ends in a mask with the defined bits, the default rule is that mask, and the other CSRs stand
apart. -/
theorem csrWriteIsLegalised : Obligations.CsrWriteIsLegalised := by
  intro s c v
  refine ⟨fun hp => ?_, fun hp hd => ⟨get_writeCsr_default hp hd v, fun f => ?_⟩, fun hp => writeCsr_absent hp v,
    fun c' hc => get_writeCsr_other s hc v, writeCsr_frame s c v⟩
  · rw [readCsr, get_writeCsr_same hp, legalise_reserved]
  · rw [readCsr, get_writeCsr_default hp hd, fieldOf_and_definedBits]

/-! ## CSR accesses -/

/-- An access reaches the register it resolves to, where the current mode may access it. -/
theorem accessibleCsr_eq_some_iff (s : State) (r : CsrRef) (c : Csr) :
    accessibleCsr s r = some c ↔
      resolveCsr s.cfg s.inputs.curMode r = some c ∧ csrAccessOk s.cfg c s.inputs.curMode = true := by
  unfold accessibleCsr
  cases hr : resolveCsr s.cfg s.inputs.curMode r with
  | none => simp
  | some d =>
    simp only [Option.ite_none_right_eq_some, Option.some.injEq]
    constructor
    · rintro ⟨hok, rfl⟩
      exact ⟨rfl, hok⟩
    · rintro ⟨rfl, hok⟩
      exact ⟨hok, rfl⟩

theorem applyEvent_csrRead_some {s : State} {r : CsrRef} {c : Csr} (h : accessibleCsr s r = some c) (rd : Reg) :
    applyEvent s (.csrRead r rd) = writeReg s rd (readCsr s c) := by
  simp [applyEvent, h]

theorem applyEvent_csrRead_none {s : State} {r : CsrRef} (h : accessibleCsr s r = none) (rd : Reg) :
    applyEvent s (.csrRead r rd) = s := by
  simp [applyEvent, h]

theorem applyEvent_csrWrite_some {s : State} {r : CsrRef} {c : Csr} (h : accessibleCsr s r = some c) (v : Word) :
    applyEvent s (.csrWrite r v) = writeCsr s c v := by
  simp [applyEvent, h]

theorem applyEvent_csrWrite_none {s : State} {r : CsrRef} (h : accessibleCsr s r = none) (v : Word) :
    applyEvent s (.csrWrite r v) = s := by
  simp [applyEvent, h]

/-- A register write changes the 32 registers at most. -/
theorem writeReg_frame (s : State) (r : Reg) (v : Word) : writeReg s r v = { s with regs := (writeReg s r v).regs } := by
  unfold writeReg
  split <;> rfl

/-- Settles O50: a read that reaches a register is a register write of its value, a write that does is `CsrWrite`, and an
access that reaches none does nothing. -/
theorem csrAccessesActWhereTheModeMay : Obligations.CsrAccessesActWhereTheModeMay := by
  intro s r rd q v
  refine ⟨accessibleCsr_eq_some_iff s r, fun c hc => ⟨fun hrd => ?_, applyEvent_csrWrite_some hc v⟩, fun hq => ?_, ?_, ?_,
    fun hn => ⟨applyEvent_csrRead_none hn rd, applyEvent_csrWrite_none hn v⟩⟩
  · rw [applyEvent_csrRead_some hc, readReg_writeReg_same s hrd]
  all_goals
    cases ha : accessibleCsr s r with
    | none => simp only [applyEvent_csrRead_none ha]
    | some c => ?_
  · rw [applyEvent_csrRead_some ha, readReg_writeReg_other s hq]
  · rw [applyEvent_csrRead_some ha, ← writeReg_frame]
  · rw [applyEvent_csrRead_some ha, writeReg_zero]

/-- Settles O47: the default list holds M-mode with each register it needs, and S/HS-mode with all but `mcmocontrol`. -/
theorem defaultCsrAccessByMode : Obligations.DefaultCsrAccessByMode := by
  intro c r m hd
  have hlist : Config.defaultAccess.contains (r, m) = true ↔ m = .M ∨ (m = .S ∧ r ≠ .mcmocontrol) := by
    cases r <;> cases m <;> decide
  rw [csrAccessOk, Bool.and_eq_true, hd, hlist]

/-- In a list whose assigned numbers differ, the search for a number finds the register that has it. -/
theorem find_of_nodup_numbers {f : Csr → Option (BitVec 12)} {l : List Csr} (hl : (l.filterMap f).Nodup) {r : Csr}
    {n : BitVec 12} (hr : r ∈ l) (hn : f r = some n) : (l.find? fun q => f q == some n) = some r := by
  induction l with
  | nil => cases hr
  | cons q l ih =>
    by_cases hq : f q = some n
    · have hnot : n ∉ l.filterMap f := by
        rw [List.filterMap_cons_some hq] at hl
        exact (List.nodup_cons.1 hl).1
      have hrq : r = q := (List.mem_cons.1 hr).resolve_right fun h => hnot (List.mem_filterMap.2 ⟨r, h, hn⟩)
      simp [hrq, hq]
    · have htail : (l.filterMap f).Nodup := hl.sublist ((List.sublist_cons_self q l).filterMap f)
      have hrl : r ∈ l := (List.mem_cons.1 hr).resolve_left fun h => hq (h ▸ hn)
      simp [hq, ih htail hrl]

/-- Where the assigned numbers differ, a number names its register. -/
theorem csrOfNumber_of_get {c : Config} (hok : c.addrOk = true) {r : Csr} {n : BitVec 12} (hr : c.addr.get r = some n) :
    csrOfNumber c n = some r :=
  find_of_nodup_numbers (by simpa [Config.addrOk] using hok) (mem_csrAll r) hr

/-- Settles O48: a number names its register, which redirection changes for `scmocontrol` in VS-mode only. -/
theorem csrNumbersNameTheirRegisters : Obligations.CsrNumbersNameTheirRegisters := by
  intro c r n m hok hr
  simp only [resolveCsr, csrOfNumber_of_get hok hr]
  cases r with
  | scmocontrol => cases c.vsRedirect <;> cases m <;> rfl
  | mcmocontrol | hcmocontrol | vscmocontrol => simp

/-- Settles O49: the boundary is the one CSR write, in which the named register holds the legalised value. -/
theorem csrWriteIsSeenByTheNextInstruction : Obligations.CsrWriteIsSeenByTheNextInstruction := by
  intro s c v rest i hp hok hc ht hm hd
  have hpres : Csr.present s.cfg c = true := by
    rw [csrAccessOk, Bool.and_eq_true] at hok
    exact hok.1
  have hb : boundary s = writeCsr { s with tick := s.tick + 1, pending := rest } c v := by
    rw [boundary_eq_applyEvents, hp]
    apply applyEvent_csrWrite_some
    rw [accessibleCsr_eq_some_iff]
    exact ⟨rfl, hok⟩
  refine ⟨step_eq_exec ?_ ?_ ?_ hd, ?_⟩
  · rw [modesPresent, hb, writeCsr_cfg, writeCsr_inputs]
    exact hm
  · rw [hb, writeCsr_trap]
    exact ht
  · rw [boundary_cfg, hc]
  · rw [hb, readCsr, get_writeCsr_same (by exact hpres)]
    rfl

/-! ## General registers, cause numbers, blocks -/

/-- Settles O51: `x0` is read and written by a test of its own, the other registers read back. -/
theorem registerZeroIsHardwired : Obligations.RegisterZeroIsHardwired :=
  fun s _ _ v =>
    ⟨readReg_zero s, writeReg_zero s v, fun h => readReg_writeReg_same s h v, fun h => readReg_writeReg_other s h v⟩

theorem pendingCause_takeException (s : State) (k : ExcKind) (info : Option Word) :
    pendingCause (takeException s k info) = some (k.cause s.cfg.invalFaultKind) := rfl

/-- Settles O52: the cause of the standing trap, by its kind and the configured variant. -/
theorem causeNumbersByKindAndVariant : Obligations.CauseNumbersByKindAndVariant := by
  intro s info
  simp only [pendingCause_takeException]
  refine ⟨rfl, fun hv => ?_, fun hv => ?_⟩
  · rw [hv]
    decide
  · rw [hv]
    decide

/-- Settles O45: a block base is aligned and has the address in its block, and an aligned base of a block with the address
is `blockBase`. -/
theorem everyAddressLiesInOneBlock : Obligations.EveryAddressLiesInOneBlock := by
  intro c a b
  constructor
  · rintro rfl
    exact ⟨blockBase_aligned c a, blockBase_le c a, lt_blockBase_add c a⟩
  · rintro ⟨hb, hle, hlt⟩
    exact blockBase_of_mem hb hle hlt

/-! ## Launch -/

theorem readCsr_launch (c : Config) (r : Csr) :
    readCsr (State.launch c) r = if Csr.present c r = true then c.resetValue.get r else 0 := by
  cases r <;> rfl

/-- Settles O55: the launch state holds `launchCsr`, stands in M-mode, which no CSR governs, and lists no fault. -/
theorem launchHoldsTheResetValues : Obligations.LaunchHoldsTheResetValues :=
  ⟨readCsr_launch, fun c i => ⟨rfl, legal_of_curMode_M (s := State.launch c) rfl i⟩, rfl⟩

/-- A well-formed configuration's launch state is legal: the `RESET_c` have their reserved bits zero. -/
theorem launch_inv {c : Config} (hc : c.wf = true) : (State.launch c).Inv := by
  have hreset (r : Csr) : c.resetValue.get r &&& ~~~definedBits = 0 := by
    simp only [Config.wf, Config.resetOk, Bool.and_eq_true, List.all_eq_true, beq_iff_eq] at hc
    exact hc.1.1.1 r (mem_csrAll r)
  have hcsr (r : Csr) : csrOk (State.launch c) r := by
    have hr : (State.launch c).csrs.get r = if Csr.present c r = true then c.resetValue.get r else 0 := readCsr_launch c r
    rw [csrOk, hr]
    refine ⟨?_, fun (habs : Csr.present c r = false) => by simp [habs]⟩
    split
    · exact hreset r
    · rfl
  have hregs (r : Reg) : (State.launch c).regs[r.val] = 0 := Vector.getElem_replicate _
  refine (inv_iff _).2 ⟨?_, ⟨fun r _ => hcsr r, ⟨hregs 0, fun r => ?_⟩, trunc_zero _⟩, rfl⟩
  · exact ⟨⟨List.Pairwise.nil, by simp [State.launch]⟩, List.Pairwise.nil, by simp [State.launch]⟩
  · rw [hregs]
    exact trunc_zero _

/-- Settles O56: the configuration at reset is well formed. -/
theorem launchIsLegal : Obligations.LaunchIsLegal :=
  ⟨launch_inv (c := Config.atReset) (by decide), fun _ => launch_inv⟩

end Sys2Proof.Machine
end

section
/-! SUPPORT. The statements about how an execution ends: which exception is taken, and on which parts of the state that does and
does not depend. -/

namespace Sys2Proof.Machine

/-! ## The three endings -/

theorem takes_fault_of_reportedFault {s : State} {i : Instr} {f : MemFault} (hl : Legal s i)
    (hf : reportedFault s i = some f) : Takes i s (.fault f) (some (effectiveAddress s i.rs1)) := by
  rw [Takes, exec_of_legal hl, hf]
  rfl

theorem exec_of_no_fault {s : State} {i : Instr} (hl : Legal s i) (hf : reportedFault s i = none) :
    exec i s = .next (retire (operated s i)) := by
  rw [exec_of_legal hl, hf]

/-- Settles O16: an instruction that is not legal takes the exception before any fault is looked at. -/
theorem illegalComesBeforeEveryFault : Obligations.IllegalComesBeforeEveryFault := fun _ _ h => exec_of_not_legal h

@[simp] theorem operated_cfg (s : State) (i : Instr) : (operated s i).cfg = s.cfg := by rw [operated_frame]
@[simp] theorem operated_csrs (s : State) (i : Instr) : (operated s i).csrs = s.csrs := by rw [operated_frame]
@[simp] theorem operated_regs (s : State) (i : Instr) : (operated s i).regs = s.regs := by rw [operated_frame]
@[simp] theorem operated_pc (s : State) (i : Instr) : (operated s i).pc = s.pc := by rw [operated_frame]
@[simp] theorem operated_inputs (s : State) (i : Instr) : (operated s i).inputs = s.inputs := by rw [operated_frame]
@[simp] theorem operated_tick (s : State) (i : Instr) : (operated s i).tick = s.tick := by rw [operated_frame]
@[simp] theorem operated_pending (s : State) (i : Instr) : (operated s i).pending = s.pending := by rw [operated_frame]

/-- Settles O30: the three endings of `exec_cases`, of which the retiring one moves the program counter. -/
theorem everyStepRetiresOrTraps : Obligations.EveryStepRetiresOrTraps := by
  intro i s
  rcases exec_cases i s with ⟨-, he⟩ | ⟨f, -, -, he⟩ | ⟨-, -, he⟩
  · exact ⟨_, he, .inr (.inl rfl)⟩
  · exact ⟨_, he, .inr (.inr ⟨f, rfl⟩)⟩
  · exact ⟨_, he, .inl ⟨rfl, by simp⟩⟩

/-- Settles O32: the container's sum is taken modulo 2^64, of which 2^XLEN is a divisor. -/
theorem programCounterAdvancesModuloXlen : Obligations.ProgramCounterAdvancesModuloXlen := by
  intro i s t h ht
  obtain ⟨-, -, rfl⟩ := retired_of_exec h ht
  have hdvd : 2 ^ s.cfg.xlen.bits ∣ 2 ^ 64 := Nat.pow_dvd_pow 2 (by cases s.cfg.xlen <;> decide)
  rw [retire_pc, operated_cfg, operated_pc, toNat_trunc, BitVec.toNat_add, Nat.mod_mod_of_dvd _ hdvd]
  rfl

/-- Settles O54: an execution that leaves a trap changed nothing else, and taking the trap clears it. -/
theorem trapKeepsTheControlRegisters : Obligations.TrapKeepsTheControlRegisters := by
  intro i s t h ht
  rcases exec_cases i s with ⟨-, he⟩ | ⟨f, -, -, he⟩ | ⟨-, -, he⟩
  · cases he.symm.trans h
    rfl
  · cases he.symm.trans h
    rfl
  · cases he.symm.trans h
    exact absurd rfl ht

/-! ## The reported fault -/

/-- An instruction other than `CBO.INVAL` reports the other fault of its access. -/
theorem reportedFault_of_ne_inval (s : State) {i : Instr} (h : i.op ≠ .inval) :
    reportedFault s i = otherFault s i.op (effectiveAddress s i.rs1) := by
  cases i with
  | cboInval r => exact absurd rfl h
  | cboClean | cboFlush | cboZero => rfl

/-- `Combine` reports nothing exactly when there is neither fault. -/
theorem combine_eq_none_iff (draw : Bool) (o f : Option MemFault) :
    combine draw o f = none ↔ o = none ∧ f = none := by
  cases o <;> cases f <;> simp [combine]
  split_ifs <;> simp

/-- Of two faults `Combine` reports the one the draw chooses. -/
theorem combine_some_some (draw : Bool) (o f : MemFault) :
    combine draw (some o) (some f) = some (if draw then o else f) := by
  by_cases h : o = f
  · simp [combine, h]
  · cases draw <;> simp [combine, h]

theorem reportedFault_inval_eq_none_iff (s : State) (r : Reg) :
    reportedFault s (.cboInval r) = none ↔ NoOtherFault s (.cboInval r) ∧ invalFault s s.inputs.effMode = none :=
  combine_eq_none_iff _ _ _

/-- No other fault, and for `CBO.INVAL` none due to the control registers: no fault is reported. -/
theorem reportedFault_eq_none {s : State} {i : Instr} (hn : NoOtherFault s i)
    (hp : i.op = .inval → invalPasses s = true) : reportedFault s i = none := by
  cases i with
  | cboInval r => exact (reportedFault_inval_eq_none_iff s r).2 ⟨hn, (invalPasses_iff s).1 (hp rfl)⟩
  | cboClean | cboFlush | cboZero => exact hn

/-- Settles O19: `Combine` of the other fault with none is the other fault. -/
theorem otherFaultIsReported : Obligations.OtherFaultIsReported := by
  intro s i f hl ho hp
  apply takes_fault_of_reportedFault hl
  cases i with
  | cboInval r =>
    have hnone : invalFault s s.inputs.effMode = none := (invalPasses_iff s).1 (hp rfl)
    simp only [Instr.op, Instr.rs1] at ho
    simp [reportedFault, invalReportedFault, ho, hnone, combine]
  | cboClean | cboFlush | cboZero => exact ho

/-- Settles O20: with both faults present `Combine` is its draw. -/
theorem combineReportsOneOfTheTwo : Obligations.CombineReportsOneOfTheTwo := by
  refine ⟨fun s r o f hl ho hf => ?_, fun o f => ⟨combine_some_some true o f, combine_some_some false o f⟩⟩
  have htakes : Takes (.cboInval r) s (.fault (if Config.combineDraw s.tick then o else f))
      (some (effectiveAddress s r)) := by
    apply takes_fault_of_reportedFault hl
    rw [reportedFault, invalReportedFault, ho, hf, combine_some_some]
  refine ⟨fun hd => ?_, fun hd => ?_, _, ?_, htakes⟩
  · simpa [hd] using htakes
  · simpa [hd] using htakes
  · cases Config.combineDraw s.tick <;> simp

/-! ## The mechanisms on the path of a mode -/

theorem forall_csr_iff (p : Csr → Prop) :
    (∀ c, p c) ↔ p .mcmocontrol ∧ p .scmocontrol ∧ p .hcmocontrol ∧ p .vscmocontrol :=
  ⟨fun h => ⟨h _, h _, h _, h _⟩, fun ⟨hm, hs, hh, hv⟩ c => by cases c <;> assumption⟩

/-- No mechanism gives a fault exactly when each one whose CSR governs the mode passes. -/
theorem invalFault_eq_none_iff (s : State) (m : Mode) :
    invalFault s m = none ↔ ∀ c, governs c m = true → passes s c = true := by
  rw [forall_csr_iff]
  cases m <;> simp [invalFault, governs] <;> grind

/-- An invalidate operation takes the bit of every CSR that governs the mode. -/
theorem invalidates_iff (s : State) (m : Mode) :
    invalidates s m = true ↔ ∀ c, governs c m = true → invalidateBit s c = true := by
  rw [forall_csr_iff]
  cases m <;> simp [invalidates, governs] <;> grind

/-- Settles O23: the CSR's mechanism does not pass, so the control registers give a fault, and `Combine` reports one. -/
theorem clearingEnableBitsMakesInvalTrap : Obligations.ClearingEnableBitsMakesInvalTrap := by
  intro s r c hg hbare h0 h1 hl
  have hblocked : passes s c = false := by
    rw [passes_eq, selectedE, hbare]
    split <;> simp [h0, h1]
  have hfault : invalFault s s.inputs.effMode ≠ none := fun hnone =>
    Bool.false_ne_true (hblocked.symm.trans ((invalFault_eq_none_iff s _).1 hnone c hg))
  have hreported : reportedFault s (.cboInval r) ≠ none := fun hnone =>
    hfault ((reportedFault_inval_eq_none_iff s r).1 hnone).2
  obtain ⟨f, hf⟩ := Option.ne_none_iff_exists'.1 hreported
  exact ⟨f, takes_fault_of_reportedFault hl hf⟩

/-! ## Larger values of the CSRs -/

/-- A CSR value with more bits set has every field set that was set. -/
theorem csrField_mono {s : State} {csrs : PerCsr Word} (h : ∀ c, s.csrs.get c &&& csrs.get c = s.csrs.get c) (c : Csr)
    {f : Field} (hf : csrField s c f = true) : csrField { s with csrs := csrs } c f = true := by
  unfold csrField at hf ⊢
  cases hp : Csr.present s.cfg c with
  | false => simp
  | true =>
    simp only [hp, if_true, fieldOf, readCsr] at hf ⊢
    rw [← h c, BitVec.getLsbD_and, Bool.and_eq_true] at hf
    exact hf.2

theorem passes_mono {s : State} {csrs : PerCsr Word} (h : ∀ c, s.csrs.get c &&& csrs.get c = s.csrs.get c) (c : Csr)
    (hp : passes s c = true) : passes { s with csrs := csrs } c = true := by
  rw [passes_eq, Bool.or_eq_true] at hp ⊢
  exact hp.imp_left (csrField_mono h c)

/-- Whether a mechanism is enabled does not look at the CSRs. -/
theorem mechanismEnabled_with_csrs (s : State) (csrs : PerCsr Word) (c : Csr) :
    mechanismEnabled { s with csrs := csrs } c = mechanismEnabled s c := by cases c <;> rfl

theorem invalidateBit_mono {s : State} {csrs : PerCsr Word} (h : ∀ c, s.csrs.get c &&& csrs.get c = s.csrs.get c) (c : Csr)
    (hi : invalidateBit s c = true) : invalidateBit { s with csrs := csrs } c = true := by
  rw [invalidateBit_eq] at hi ⊢
  rw [mechanismEnabled_with_csrs]
  split at hi
  · rw [if_pos ‹_›]
    exact csrField_mono h c hi
  · rw [if_neg ‹_›]
    rw [bothI, Bool.and_eq_true] at hi ⊢
    exact ⟨csrField_mono h c hi.1, csrField_mono h c hi.2⟩

/-- `CBO.INVAL` invalidates exactly when the "Invalidate" column holds. -/
theorem invalOp_eq_invalidate_iff (s : State) (m : Mode) : invalOp s m = .invalidate ↔ invalidates s m = true := by
  unfold invalOp
  split <;> simp [*]

/-- Settles O25: legality, the absence of a control fault and the invalidate operation each ask for set bits only. -/
theorem settingBitsOnlyPermits : Obligations.SettingBitsOnlyPermits := by
  intro s csrs h
  have hlegal (i : Instr) (hl : Legal s i) : Legal { s with csrs := csrs } i :=
    fun c hc hg => csrField_mono h c (hl c hc hg)
  refine ⟨hlegal, fun r t he ht => ?_, fun hi => ?_⟩
  · obtain ⟨hl, hf, -⟩ := retired_of_exec he ht
    obtain ⟨hn, hpass⟩ := (reportedFault_inval_eq_none_iff s r).1 hf
    have hpass' : invalFault { s with csrs := csrs } s.inputs.effMode = none :=
      (invalFault_eq_none_iff _ _).2 fun c hg => passes_mono h c ((invalFault_eq_none_iff s _).1 hpass c hg)
    exact ⟨_, exec_of_no_fault (hlegal _ hl) ((reportedFault_inval_eq_none_iff _ r).2 ⟨hn, hpass'⟩), rfl⟩
  · rw [invalOp_eq_invalidate_iff, invalidates_iff] at hi ⊢
    exact fun c hg => invalidateBit_mono h c (hi c hg)

/-! ## Without S-mode -/

/-- The only register that governs U-mode beside `mcmocontrol` is `scmocontrol`, whose absent fields read as 1. -/
theorem legal_of_U_iff {s : State} (hc : s.cfg.cmoImplemented = true) (hS : s.cfg.haveS = false)
    (hU : s.inputs.curMode = .U) (i : Instr) : Legal s i ↔ fieldOf s.csrs.mcmocontrol (enableField i.op) = true := by
  simp [Legal, hU, Csr.all, governs, csrField, Csr.present, hc, hS, readCsr, PerCsr.get]

/-- Settles O37: every field of the absent `scmocontrol` reads as 1, so that its term drops out of legality, fault and
operation. -/
theorem absentScmocontrolDropsOut : Obligations.AbsentScmocontrolDropsOut := by
  intro s r hc hS hU
  have hillegal (i : Instr) :
      Takes i s .illegalInstruction none ↔ fieldOf s.csrs.mcmocontrol (enableField i.op) = false := by
    rw [takes_illegal_iff_not_legal, legal_of_U_iff hc hS hU, Bool.not_eq_true]
  have habsent (f : Field) : csrField s .scmocontrol f = true := by simp [csrField, Csr.present, hS]
  refine ⟨fun i hi => ?_, hillegal (.cboZero r), fun heff hn hme => ?_⟩
  · have hfield : enableField i.op = .CBME := by
      cases i with
      | cboZero r => exact absurd rfl hi
      | cboInval | cboClean | cboFlush => rfl
    rw [hillegal, hfield]
  · have hl : Legal s (.cboInval r) := (legal_of_U_iff hc hS hU _).2 hme
    have hE : selectedE s .scmocontrol = true := habsent _
    have hI (bare : Bool) : pageI s .scmocontrol bare = true := by
      cases bare <;> simp [pageI, bothI, selectedI, habsent]
    have hpasses : invalPasses s = selectedE s .mcmocontrol := by simp [invalPasses, heff, hE]
    have hformula : invalFormula s = machineI s := by simp [invalFormula, heff, hI]
    refine ⟨fun hm => ?_, fun hm hi => ?_, fun hm hi => ?_⟩
    · rw [takes_fault_iff_invalFault hl hn, heff]
      simp [invalFault, passes_eq, mechanismBare, hE, hm]
    · exact (invalOperationExactlyByInvalidateBits s r hl hn (hpasses.trans hm)).1 (hformula.trans hi)
    · exact (invalOperationExactlyByInvalidateBits s r hl hn (hpasses.trans hm)).2 (hformula.trans hi)

/-! ## Which part of the state an execution looks at -/

/-- Legality looks at the current mode and at the instruction's bit in the CSRs that govern it. -/
theorem legal_congr {s t : State} {i : Instr} (hmode : t.inputs.curMode = s.inputs.curMode)
    (hfield : ∀ c, governs c s.inputs.curMode = true → csrField t c (enableField i.op) = csrField s c (enableField i.op)) :
    Legal t i ↔ Legal s i := by
  unfold Legal
  rw [hmode]
  refine forall₃_congr fun c _ hg => ?_
  rw [hfield c hg]

/-- A field of a CSR looks at that field's bit, and at the configuration. -/
theorem csrField_congr {s t : State} {c : Csr} {f : Field} (hc : t.cfg = s.cfg)
    (h : fieldOf (t.csrs.get c) f = fieldOf (s.csrs.get c) f) : csrField t c f = csrField s c f := by
  simp only [csrField, readCsr, hc, h]

/-- An enable bit is one of the two fields. -/
theorem enableField_congr {v w : Word} (h : fieldOf v .CBME = fieldOf w .CBME ∧ fieldOf v .CBWE = fieldOf w .CBWE)
    (op : CmoOp) : fieldOf v (enableField op) = fieldOf w (enableField op) := by
  obtain ⟨hm, hw⟩ := h
  cases op <;> assumption

/-- The chain of mechanisms looks at those whose CSR governs the mode. -/
theorem invalFault_congr {s t : State} {m : Mode} (h : ∀ c, governs c m = true → passes t c = passes s c) :
    invalFault t m = invalFault s m := by
  cases m with
  | M => rfl
  | S => simp only [invalFault, h .mcmocontrol rfl]
  | U => simp only [invalFault, h .mcmocontrol rfl, h .scmocontrol rfl]
  | VS => simp only [invalFault, h .mcmocontrol rfl, h .hcmocontrol rfl]
  | VU => simp only [invalFault, h .mcmocontrol rfl, h .hcmocontrol rfl, h .vscmocontrol rfl]

/-- With other CSR values a mechanism passes alike where the two E bits are the same. -/
theorem passes_with_csrs {s : State} {csrs : PerCsr Word} {c : Csr}
    (h : ∀ f ∈ [Field.INVW0I, .INVW0E, .INVW1I, .INVW1E], csrField { s with csrs := csrs } c f = csrField s c f) :
    passes { s with csrs := csrs } c = passes s c := by
  have hbare : mechanismBare { s with csrs := csrs } c = mechanismBare s c := by cases c <;> rfl
  have hE : selectedE { s with csrs := csrs } c = selectedE s c := by
    unfold selectedE
    exact h _ (by simp only; split <;> simp)
  rw [passes_eq, passes_eq, hbare, hE]

/-- With other CSR values `I(c)` is the same where the INVW bits are. -/
theorem invalidateBit_with_csrs {s : State} {csrs : PerCsr Word} {c : Csr}
    (h : ∀ f ∈ [Field.INVW0I, .INVW0E, .INVW1I, .INVW1E], csrField { s with csrs := csrs } c f = csrField s c f) :
    invalidateBit { s with csrs := csrs } c = invalidateBit s c := by
  have hI : selectedI { s with csrs := csrs } c = selectedI s c := by
    unfold selectedI
    exact h _ (by simp only; split <;> simp)
  rw [invalidateBit_eq, invalidateBit_eq, mechanismEnabled_with_csrs, hI, bothI, bothI, h .INVW0I (by simp), h .INVW1I (by simp)]

/-- With other CSR values and inputs, but the same translation and for `CBO.INVAL` the same choice, an instruction operates
alike. -/
theorem operated_with (s : State) (csrs : PerCsr Word) (inp : Inputs) (i : Instr)
    (hx : inp.dataXlat = s.inputs.dataXlat)
    (hi : i.op = .inval → invalFormula { s with csrs := csrs, inputs := inp } = invalFormula s) :
    operated { s with csrs := csrs, inputs := inp } i = { operated s i with csrs := csrs, inputs := inp } := by
  have hblock : blockOf { s with csrs := csrs, inputs := inp } i = blockOf s i := by
    simp only [blockOf, operandBlock, physAddr, hx]
    rfl
  cases i with
  | cboInval r =>
    rw [operated_inval, operated_inval, hblock, hi rfl]
    split
    · rfl
    · exact cacheFlush_with s csrs inp _
  | cboClean r => exact (congrArg _ hblock).trans (cacheClean_with s csrs inp _)
  | cboFlush r => exact (congrArg _ hblock).trans (cacheFlush_with s csrs inp _)
  | cboZero r => exact (congrArg _ hblock).trans (blockZero_with s csrs inp _)

/-- With other CSR values that leave legality as it is and, on the path of the effective mode, the INVW bits, an execution is
the same but for the CSR values. -/
theorem exec_with_csrs {s : State} {i : Instr} {csrs : PerCsr Word} (hl : Legal { s with csrs := csrs } i ↔ Legal s i)
    (h : i.op = .inval → ∀ c, governs c s.inputs.effMode = true → ∀ f ∈ [Field.INVW0I, .INVW0E, .INVW1I, .INVW1E],
      fieldOf (csrs.get c) f = fieldOf (s.csrs.get c) f) :
    ∃ t, exec i s = .next t ∧ exec i { s with csrs := csrs } = .next { t with csrs := csrs } := by
  have hfield (hop : i.op = .inval) (c : Csr) (hg : governs c s.inputs.effMode = true) :
      ∀ f ∈ [Field.INVW0I, .INVW0E, .INVW1I, .INVW1E], csrField { s with csrs := csrs } c f = csrField s c f :=
    fun f hf => csrField_congr rfl (h hop c hg f hf)
  refine exec_commutes ({ · with csrs := csrs }) (fun _ _ _ => rfl) (fun _ => rfl) rfl hl ?_ ?_
  · cases i with
    | cboInval r =>
      have hfault : invalFault { s with csrs := csrs } s.inputs.effMode = invalFault s s.inputs.effMode :=
        invalFault_congr fun c hg => passes_with_csrs (hfield rfl c hg)
      simp only [reportedFault, invalReportedFault, hfault]
      rfl
    | cboClean | cboFlush | cboZero => rfl
  · have hformula (hop : i.op = .inval) : invalFormula { s with csrs := csrs } = invalFormula s := by
      rw [← invalidates_eq_formula, ← invalidates_eq_formula, Bool.eq_iff_iff, invalidates_iff, invalidates_iff]
      exact forall₂_congr fun c hg => by rw [invalidateBit_with_csrs (hfield hop c hg)]
    simpa using operated_with s csrs s.inputs i rfl hformula

/-- Settles O14: legality looks at `CBME` and `CBWE` under the current mode alone; a legal `CBO.INVAL` looks at INVW bits
alone. -/
theorem enableBitsAndInvwBitsAreIndependent : Obligations.EnableBitsAndInvwBitsAreIndependent := by
  refine ⟨fun s i csrs inp h hmode => ?_, fun s r csrs h hl hl' => ?_⟩
  · have hlegal : Legal { s with csrs := csrs, inputs := inp } i ↔ Legal s i :=
      legal_congr hmode fun c _ => csrField_congr rfl (enableField_congr (h c) i.op)
    rw [takes_illegal_iff_not_legal, takes_illegal_iff_not_legal, hlegal]
  · exact exec_with_csrs (iff_of_true hl' hl) fun _ c _ => h c

/-- Settles O35: legality looks at the CSRs that govern the current mode, fault and operation of `CBO.INVAL` at those that
govern the effective one. -/
theorem onlyGoverningCsrsAreConsulted : Obligations.OnlyGoverningCsrsAreConsulted := by
  intro s i csrs h
  refine exec_with_csrs (legal_congr rfl fun c hg => ?_) fun _ c hg f _ => ?_
  · exact csrField_congr rfl (congrArg (fieldOf · _) (h c (.inl hg)))
  · rw [h c (.inr hg)]

/-- Settles O34: the other three instructions look at `CBME` and `CBWE`, the other fault and the translation, none of which
changes. -/
theorem onlyInvalReadsInvwBits : Obligations.OnlyInvalReadsInvwBits := by
  intro s i csrs granted b1 b2 b3 hop h
  refine exec_commutes ({ · with
    csrs := csrs
    inputs := { s.inputs with granted := granted, satpBare := b1, hgatpBare := b2, vsatpBare := b3 } })
    (fun _ _ _ => rfl) (fun _ => rfl) rfl ?_ ?_ ?_
  · exact legal_congr rfl fun c _ => csrField_congr rfl (enableField_congr (h c) i.op)
  · rw [reportedFault_of_ne_inval _ hop, reportedFault_of_ne_inval _ hop]
    rfl
  · exact operated_with s csrs _ i rfl fun hi => absurd hi hop

/-- Settles O36: legality and the reported fault see neither memory nor cache, and the program counter moves by 4. -/
theorem outcomeIgnoresMemoryAndCache : Obligations.OutcomeIgnoresMemoryAndCache := by
  intro s i m k
  have hlegal : Legal { s with mem := m, cache := k } i ↔ Legal s i := legal_congr rfl fun _ _ => rfl
  have hfault : reportedFault { s with mem := m, cache := k } i = reportedFault s i := by cases i <;> rfl
  rcases exec_cases i s with ⟨hl, he⟩ | ⟨f, hl, hf, he⟩ | ⟨hl, hf, he⟩
  · exact ⟨_, _, he, exec_of_not_legal (mt hlegal.1 hl), rfl, rfl⟩
  · exact ⟨_, _, he, takes_fault_of_reportedFault (hlegal.2 hl) (hfault.trans hf), rfl, rfl⟩
  · exact ⟨_, _, he, exec_of_no_fault (hlegal.2 hl) (hfault.trans hf), rfl, by simp⟩

/-- Two base registers that name one block operate alike. -/
theorem operated_of_same_block {s : State} {op : CmoOp} {r q : Reg} (h : blockOf s (op.instr r) = blockOf s (op.instr q)) :
    operated s (op.instr r) = operated s (op.instr q) := by
  cases op with
  | inval => exact congrArg (invalOperate · s) h
  | clean => exact congrArg (cacheClean s) h
  | flush => exact congrArg (cacheFlush s) h
  | zero => exact congrArg (blockZero s) h

/-- Settles O33: with no fault reported, the address enters the execution through its block alone. -/
theorem addressesOfOneBlockNameOneOperation : Obligations.AddressesOfOneBlockNameOneOperation := by
  intro s op r q hr hq hp hblock
  have hlegal : Legal s (op.instr r) ↔ Legal s (op.instr q) := by simp only [Legal, op_instr]
  by_cases hl : Legal s (op.instr r)
  · rw [exec_of_no_fault hl (reportedFault_eq_none hr (by simpa using hp)),
      exec_of_no_fault (hlegal.1 hl) (reportedFault_eq_none hq (by simpa using hp)), operated_of_same_block hblock]
  · rw [exec_of_not_legal hl, exec_of_not_legal (mt hlegal.2 hl)]

/-- Settles O22: `CBO.FLUSH` is legal with `CBO.INVAL`, its only fault is the other one, and both operate by `cacheFlush` on the
same block. -/
theorem invalThatFlushesIsCboFlush : Obligations.InvalThatFlushesIsCboFlush := by
  intro s r hl hn
  have hflush : exec (.cboFlush r) s = .next (retire (cacheFlush s (blockOf s (.cboFlush r)))) :=
    exec_of_no_fault (i := .cboFlush r) hl (reportedFault_eq_none hn nofun)
  refine ⟨fun hni hp hi => ?_, _, hflush, rfl⟩
  rw [(invalOperationExactlyByInvalidateBits s r hl hni hp).2 hi, hflush]
  rfl

end Sys2Proof.Machine
end

section
/-! SUPPORT. The statements of 20_memory.md and of the completion of the four instructions: what memory, the copies and the reads
are afterwards. -/

namespace Sys2Proof.Machine

/-! ## Blocks and reads -/

/-- An address lies in the operand's block exactly when that is its block. -/
theorem inBlock_blockOf_iff (s : State) (i : Instr) (a : Nat) :
    InBlock s (blockOf s i) a ↔ blockBase s.cfg a = blockOf s i :=
  (blockBase_eq_iff (operandBlock_aligned s _)).symm

@[simp] theorem readByte_retire (s : State) (a : Nat) : readByte (retire s) a = readByte s a := rfl

/-- After its operation an instruction retires with every register and input as before. -/
theorem retired_operated (s : State) (i : Instr) : Retired s (retire (operated s i)) := by
  simp [Retired, SameRegisters]

/-- No copy of the block is modified. -/
abbrev NoModifiedCopy (s : State) (b : Nat) : Prop := ∀ d, s.cache.find b ≠ some ⟨d, true⟩

/-- Invalidating a block with no modified copy changes no byte a read returns. -/
theorem readByte_cacheInval {s : State} (hs : Storage s) {b : Nat} (hb : NoModifiedCopy s b) (a : Nat) :
    readByte (cacheInval s b) a = readByte s a := by
  by_cases hab : blockBase s.cfg a = b
  · subst hab
    rw [readByte_cacheInval_inside]
    match hf : s.cache.find (blockBase s.cfg a) with
    | none => rw [readByte_absent hf]
    | some ⟨d, false⟩ => rw [readByte_clean hs hf]
    | some ⟨d, true⟩ => exact absurd hf (hb d)
  · exact readByte_cacheInval_outside s hab

/-! ## The copies after each operation -/

/-- After a clean operation the block's copy has its data and is not modified. -/
theorem find_cacheClean_same (s : State) (b : Nat) :
    (cacheClean s b).cache.find b = (s.cache.find b).map fun l => ⟨l.data, false⟩ := by
  match hf : s.cache.find b with
  | none => rw [cacheClean_absent hf, hf]; rfl
  | some ⟨d, false⟩ => rw [cacheClean_clean hf, hf]; rfl
  | some ⟨d, true⟩ => rw [cacheClean_modified hf]; exact find_put_same _ _ _

theorem find_cacheClean_other (s : State) {b b' : Nat} (h : b' ≠ b) :
    (cacheClean s b).cache.find b' = s.cache.find b' := by
  match hf : s.cache.find b with
  | none => rw [cacheClean_absent hf]
  | some ⟨d, false⟩ => rw [cacheClean_clean hf]
  | some ⟨d, true⟩ => rw [cacheClean_modified hf]; exact find_put_other _ _ h

theorem find_cacheFill_other (s : State) {b b' : Nat} (h : b' ≠ b) :
    (cacheFill s b).cache.find b' = s.cache.find b' := by
  cases hf : s.cache.find b with
  | some l => rw [cacheFill_present hf]
  | none => rw [cacheFill_absent hf]; exact find_put_other _ _ h

theorem noModifiedCopy_cacheClean (s : State) (b : Nat) : NoModifiedCopy (cacheClean s b) b := by
  intro d
  rw [find_cacheClean_same]
  cases s.cache.find b <;> simp

theorem noModifiedCopy_cacheFlush (s : State) (b : Nat) : NoModifiedCopy (cacheFlush s b) b := by simp [NoModifiedCopy]

/-- Bytes for a whole block replace its data. -/
theorem splice_whole {d vs : List Byte} (h : vs.length = d.length) : splice d 0 vs = vs := by
  simp [splice, ← h]

/-- After `BlockZero` the block's copy is all zeros, and modified. -/
theorem find_blockZero_same {s : State} (hs : Storage s) {b : Nat} (hb : b % blockSize s.cfg = 0) :
    (blockZero s b).cache.find b = some ⟨List.replicate (blockSize s.cfg) 0#8, true⟩ := by
  obtain ⟨l, hl, heq⟩ := memWriteBlock_cache s b 0 (List.replicate (blockSize s.cfg) 0#8)
  have hlen : l.data.length = blockSize s.cfg := by
    simpa using (lineOk_of_find (cacheFill_storage hs hb).2 hl).2.1
  rw [blockZero, heq, splice_whole (by simp [hlen])]
  exact find_put_same _ _ _

theorem find_blockZero_other (s : State) {b b' : Nat} (h : b' ≠ b) :
    (blockZero s b).cache.find b' = s.cache.find b' := by
  obtain ⟨l, -, heq⟩ := memWriteBlock_cache s b 0 (List.replicate (blockSize s.cfg) 0#8)
  rw [blockZero, heq]
  exact (find_put_other _ _ h).trans (find_cacheFill_other s h)

/-- After `BlockZero` the block reads as zero and every other byte as before. -/
theorem readByte_blockZero {s : State} (hs : Storage s) {b : Nat} (hb : b % blockSize s.cfg = 0) (a : Nat) :
    readByte (blockZero s b) a = if blockBase s.cfg a = b then 0#8 else readByte s a := by
  have hr := readByte_memWriteBlock hs hb (o := 0) (vs := List.replicate (blockSize s.cfg) 0#8) (by simp) a
  simp only [Nat.add_zero, List.length_replicate, ← blockBase_eq_iff hb] at hr
  rw [blockZero, hr]
  refine if_congr Iff.rfl ?_ rfl
  rw [List.getD_eq_getElem?_getD, List.getElem?_replicate]
  split <;> rfl

/-! ## Completion of the four instructions -/

/-- After a clean operation on the operand's block memory holds what a read of the block returned. -/
theorem mem_cacheClean_inBlock {s : State} (hs : Storage s) {i : Instr} {a : Nat} (ha : InBlock s (blockOf s i) a) :
    (cacheClean s (blockOf s i)).mem.read a = readByte s a := by
  rw [← mem_cacheClean_inside hs, (inBlock_blockOf_iff s i a).1 ha]

theorem mem_cacheClean_not_inBlock {s : State} (hs : Storage s) {b a : Nat} (ha : ¬ InBlock s b a) :
    (cacheClean s b).mem.read a = s.mem.read a :=
  read_mem_cacheClean_outside hs (by simp only [InBlock] at ha; omega)

/-- Settles O26: what `cacheClean` does to the copies, to memory and to the reads. -/
theorem cleanWritesTheBlockBackAndKeepsIt : Obligations.CleanWritesTheBlockBackAndKeepsIt := by
  intro s r hs hl hn
  refine ⟨_, exec_of_no_fault hl (reportedFault_eq_none hn nofun), retired_operated s _, find_cacheClean_same s _,
    fun b' hb' => find_cacheClean_other s hb', fun a => mem_cacheClean_inBlock hs.storage,
    fun a => mem_cacheClean_not_inBlock hs.storage, fun a => readByte_cacheClean hs.storage _ a⟩

/-- Settles O27: `cacheFlush` is `cacheClean` with the copy dropped. -/
theorem flushWritesTheBlockBackAndDropsIt : Obligations.FlushWritesTheBlockBackAndDropsIt := by
  intro s r hs hl hn
  refine ⟨_, exec_of_no_fault hl (reportedFault_eq_none hn nofun), retired_operated s _, find_drop_same _ _,
    fun b' hb' => (find_drop_other _ hb').trans (find_cacheClean_other s hb'), fun a => mem_cacheClean_inBlock hs.storage,
    fun a => mem_cacheClean_not_inBlock hs.storage, fun a => readByte_cacheFlush hs.storage _ a⟩

/-- A `CBO.INVAL` that faults nowhere and whose formula holds invalidates and retires. -/
theorem exec_inval_of_formula {s : State} {r : Reg} (hl : Legal s (.cboInval r)) (hn : NoOtherFault s (.cboInval r))
    (hp : invalPasses s = true) (hi : invalFormula s = true) :
    exec (.cboInval r) s = .next (retire (cacheInval s (blockOf s (.cboInval r)))) :=
  (invalOperationExactlyByInvalidateBits s r hl hn hp).1 hi

/-- Settles O28: `cacheInval` drops the block's copy and touches nothing else. -/
theorem invalidateDropsTheBlockUnwritten : Obligations.InvalidateDropsTheBlockUnwritten := by
  intro s r hl hn hp hi
  refine ⟨_, exec_inval_of_formula hl hn hp hi, by simp [Retired, SameRegisters], rfl, find_drop_same _ _,
    fun b' hb' => find_drop_other _ hb', fun a ha => ?_, fun a ha => ?_⟩
  · rw [readByte_retire, ← (inBlock_blockOf_iff s _ a).1 ha, readByte_cacheInval_inside]
  · rw [readByte_retire, readByte_cacheInval_outside s (mt (inBlock_blockOf_iff s _ a).2 ha)]

/-- Settles O29: what `blockZero` does to the copies and to the reads; memory is not written. -/
theorem zeroWritesTheWholeBlock : Obligations.ZeroWritesTheWholeBlock := by
  intro s r hs hl hn
  have hread := readByte_blockZero hs.storage (operandBlock_aligned s (effectiveAddress s r))
  refine ⟨_, exec_of_no_fault hl (reportedFault_eq_none hn nofun), retired_operated s _, blockZero_mem s _,
    find_blockZero_same hs.storage (operandBlock_aligned s _), fun b' hb' => find_blockZero_other s hb',
    fun a ha => ?_, fun a ha => ?_⟩
  · exact (hread a).trans (if_pos ((inBlock_blockOf_iff s _ a).1 ha))
  · exact (hread a).trans (if_neg (mt (inBlock_blockOf_iff s _ a).2 ha))

/-- Settles O24: a governing CSR with both I bits clear gives `I(c) = 0`, so the operation is a flush, which changes no read. -/
theorem clearingInvalidateBitsMakesInvalFlush : Obligations.ClearingInvalidateBitsMakesInvalFlush := by
  intro s r c hs hg h0 h1 hl hn hp
  have hbit : invalidateBit s c = false := by
    rw [invalidateBit_eq]
    split
    · rw [selectedI]
      split <;> assumption
    · simp [bothI, h0]
  have hformula : invalFormula s = false := by
    rw [← invalidates_eq_formula, ← Bool.not_eq_true, invalidates_iff]
    exact fun hall => Bool.false_ne_true (hbit.symm.trans (hall c hg))
  have he := (invalOperationExactlyByInvalidateBits s r hl hn hp).2 hformula
  refine ⟨he, fun t ht a => ?_⟩
  cases he.symm.trans ht
  rw [readByte_retire, readByte_cacheFlush hs.storage]

/-! ## The management operations -/

theorem drop_of_find_none {k : Cache} {b : Nat} (h : k.find b = none) : k.drop b = k := by
  induction k with
  | nil => rfl
  | cons e k ih =>
    obtain ⟨j, x⟩ := e
    by_cases hj : j = b
    · simp [Cache.find, hj] at h
    · simp only [Cache.find, hj, if_false] at h
      simp [Cache.drop, hj, ih h]

/-- A clean operation on a block with no modified copy does nothing. -/
theorem cacheClean_of_noModifiedCopy {s : State} {b : Nat} (h : NoModifiedCopy s b) : cacheClean s b = s := by
  match hf : s.cache.find b with
  | none => exact cacheClean_absent hf
  | some ⟨d, false⟩ => exact cacheClean_clean hf
  | some ⟨d, true⟩ => exact absurd hf (h d)

/-- An invalidate operation on a block with no copy does nothing. -/
theorem cacheInval_of_absent {s : State} {b : Nat} (h : s.cache.find b = none) : cacheInval s b = s := by
  rw [cacheInval, drop_of_find_none h]

/-- Settles O43: after each operation the block has no modified copy, after two of them no copy, and on such a block the
operation does nothing. -/
theorem managementOperationsAreIdempotent : Obligations.ManagementOperationsAreIdempotent := by
  refine ⟨fun s b => ⟨cacheInval_of_absent (find_drop_same _ _),
    cacheClean_of_noModifiedCopy (noModifiedCopy_cacheClean s b), ?_⟩, fun s b a hs hb =>
    ⟨readByte_cacheInval hs.storage hb a, readByte_cacheClean hs.storage b a, readByte_cacheFlush hs.storage b a⟩⟩
  have hclean : cacheClean (cacheFlush s b) b = cacheFlush s b :=
    cacheClean_of_noModifiedCopy (noModifiedCopy_cacheFlush s b)
  conv_lhs => rw [cacheFlush, hclean]
  exact cacheInval_of_absent (find_drop_same _ _)

/-! ## Spontaneous transitions -/

/-- A spontaneous transition changes no byte that a read returns. -/
theorem readByte_applyEvent_spontaneous {s : State} (hs : Storage s) {e : Event} (he : e.spontaneous = true) (a : Nat) :
    readByte (applyEvent s e) a = readByte s a := by
  cases e with
  | fill x => exact readByte_cacheFill hs (blockBase_aligned _ _) a
  | writeBack x => exact readByte_cacheClean hs _ a
  | evict x => exact readByte_cacheEvict hs _ a
  | writeBackPart x os => exact readByte_cacheWriteBackPart hs _ os a
  | store | csrWrite | csrRead | setReg | setPc | supply | takeTrap => cases he

theorem cacheClean_frame (s : State) (b : Nat) :
    cacheClean s b = { s with mem := (cacheClean s b).mem, cache := (cacheClean s b).cache } := by
  unfold cacheClean
  split <;> rfl

/-- A spontaneous transition changes memory and the cache only. -/
theorem applyEvent_spontaneous_frame (s : State) {e : Event} (he : e.spontaneous = true) :
    applyEvent s e = { s with mem := (applyEvent s e).mem, cache := (applyEvent s e).cache } := by
  cases e with
  | fill x =>
    simp only [applyEvent, cacheFill]
    split <;> rfl
  | writeBack x => exact cacheClean_frame s _
  | evict x =>
    simp only [applyEvent, cacheEvict]
    split <;> rfl
  | writeBackPart x os =>
    simp only [applyEvent, cacheWriteBackPart]
    split <;> rfl
  | store | csrWrite | csrRead | setReg | setPc | supply | takeTrap => cases he

/-- A block with no modified copy has none after a spontaneous transition: the cache modifies no copy by itself. -/
theorem noModifiedCopy_applyEvent {s : State} {b : Nat} (hb : NoModifiedCopy s b) {e : Event}
    (he : e.spontaneous = true) : NoModifiedCopy (applyEvent s e) b := by
  cases e with
  | fill x =>
    by_cases hx : b = blockBase s.cfg x
    · subst hx
      cases hf : s.cache.find (blockBase s.cfg x) with
      | some l => simpa only [applyEvent, cacheFill_present hf] using hb
      | none => simp [applyEvent, NoModifiedCopy, cacheFill_absent hf, find_put_same]
    · simpa only [applyEvent, NoModifiedCopy, find_cacheFill_other s hx] using hb
  | writeBack x =>
    by_cases hx : b = blockBase s.cfg x
    · subst hx
      exact noModifiedCopy_cacheClean s _
    · simpa only [applyEvent, cacheWriteBack, NoModifiedCopy, find_cacheClean_other s hx] using hb
  | evict x =>
    simp only [applyEvent, cacheEvict]
    split
    · by_cases hx : b = blockBase s.cfg x
      · simp [NoModifiedCopy, hx]
      · simpa only [NoModifiedCopy, find_drop_other _ hx] using hb
    · exact hb
    · exact hb
  | writeBackPart x os => simpa only [applyEvent, NoModifiedCopy, cacheWriteBackPart_cache] using hb
  | store | csrWrite | csrRead | setReg | setPc | supply | takeTrap => cases he

theorem readByte_applyEvents_spontaneous {s : State} (hs : Storage s) {es : List Event}
    (hes : ∀ e ∈ es, e.spontaneous = true) (a : Nat) : readByte (applyEvents s es) a = readByte s a := by
  induction es generalizing s with
  | nil => rfl
  | cons e es ih =>
    obtain ⟨he, hes⟩ := List.forall_mem_cons.1 hes
    rw [applyEvents, ih (applyEvent_storage hs e) hes, readByte_applyEvent_spontaneous hs he]

theorem applyEvents_spontaneous_frame (s : State) {es : List Event} (hes : ∀ e ∈ es, e.spontaneous = true) :
    applyEvents s es = { s with mem := (applyEvents s es).mem, cache := (applyEvents s es).cache } := by
  induction es generalizing s with
  | nil => rfl
  | cons e es ih =>
    obtain ⟨he, hes⟩ := List.forall_mem_cons.1 hes
    have htail := ih (applyEvent s e) hes
    rw [applyEvent_spontaneous_frame s he] at htail
    rw [applyEvents, applyEvent_spontaneous_frame s he]
    exact htail

theorem noModifiedCopy_applyEvents {s : State} {b : Nat} (hb : NoModifiedCopy s b) {es : List Event}
    (hes : ∀ e ∈ es, e.spontaneous = true) : NoModifiedCopy (applyEvents s es) b := by
  induction es generalizing s with
  | nil => exact hb
  | cons e es ih =>
    obtain ⟨he, hes⟩ := List.forall_mem_cons.1 hes
    exact ih (noModifiedCopy_applyEvent hb he) hes

/-- Settles O40: each transition changes no read and nothing but memory and cache, and keeps the storage legal for the next. -/
theorem spontaneousTransitionsKeepEveryRead : Obligations.SpontaneousTransitionsKeepEveryRead := by
  intro s es hs hes
  rw [List.all_eq_true] at hes
  exact ⟨readByte_applyEvents_spontaneous hs.storage hes, applyEvents_spontaneous_frame s hes⟩

/-! ## Invalidate operations after other operations -/

/-- Settles O38: the invalidate exposes memory's byte, which a write back just before made the newer one. -/
theorem invalidateMayExposeStaleData : Obligations.InvalidateMayExposeStaleData := by
  intro s r d a hs hl hn hp hi _ ha
  rw [inBlock_blockOf_iff] at ha
  refine ⟨⟨_, exec_inval_of_formula hl hn hp hi, rfl, ?_⟩, ?_⟩
  · rw [readByte_retire, ← ha, readByte_cacheInval_inside]
  · have hback : applyEvent s (.writeBack a) =
        { s with
          mem := (cacheClean s (blockBase s.cfg a)).mem
          cache := (cacheClean s (blockBase s.cfg a)).cache } := cacheClean_frame s _
    rw [hback]
    refine ⟨_, exec_inval_of_formula (s := { s with mem := _, cache := _ }) hl hn hp hi, rfl, ?_⟩
    rw [readByte_retire, ← mem_cacheClean_inside hs.storage]
    refine readByte_absent ?_
    exact ha ▸ find_drop_same _ _

/-- The operand's block looks at the configuration, the inputs and the registers. -/
theorem blockOf_congr {s t : State} (hcfg : t.cfg = s.cfg) (hinputs : t.inputs = s.inputs) (hregs : t.regs = s.regs)
    (i : Instr) : blockOf t i = blockOf s i := by
  simp only [blockOf, operandBlock, physAddr, effectiveAddress, readReg, hcfg, hinputs, hregs]

theorem blockOf_retire_operated (s : State) (j i : Instr) : blockOf (retire (operated s j)) i = blockOf s i :=
  blockOf_congr (by simp) (by simp) (by simp) i

theorem blockOf_applyEvents (s : State) {es : List Event} (hes : ∀ e ∈ es, e.spontaneous = true) (i : Instr) :
    blockOf (applyEvents s es) i = blockOf s i :=
  blockOf_congr (applyEvents_cfg s es) (by rw [applyEvents_spontaneous_frame s hes])
    (by rw [applyEvents_spontaneous_frame s hes]) i

/-- A clean or flush operation leaves its block with no modified copy and changes no read. -/
theorem operated_clean_or_flush {s : State} (hs : Storage s) {i : Instr} {r : Reg}
    (hi : i = .cboClean r ∨ i = .cboFlush r) :
    NoModifiedCopy (operated s i) (blockOf s i) ∧ ∀ a, readByte (operated s i) a = readByte s a := by
  rcases hi with rfl | rfl
  · exact ⟨noModifiedCopy_cacheClean s _, readByte_cacheClean hs _⟩
  · exact ⟨noModifiedCopy_cacheFlush s _, readByte_cacheFlush hs _⟩

/-- Where its block has no modified copy, neither operation of a `CBO.INVAL` changes a read. -/
theorem readByte_operated_inval {s : State} (hs : Storage s) {q : Reg} (hb : NoModifiedCopy s (blockOf s (.cboInval q)))
    (a : Nat) : readByte (operated s (.cboInval q)) a = readByte s a := by
  rw [operated_inval]
  split
  · exact readByte_cacheInval hs hb a
  · exact readByte_cacheFlush hs _ a

/-- Settles O39: the clean or flush leaves no modified copy, the transitions between make none, and without one neither
operation of a `CBO.INVAL` changes a read. -/
theorem cleanOrFlushThenInvalidateLosesNothing : Obligations.CleanOrFlushThenInvalidateLosesNothing := by
  intro s t1 t3 before between i r q hs hbefore hbetween hi he1 ht1 he3 ht3 hblock a
  rw [List.all_eq_true] at hbefore hbetween
  obtain ⟨-, -, rfl⟩ := retired_of_exec he1 ht1
  obtain ⟨-, -, rfl⟩ := retired_of_exec he3 ht3
  have hs1 : Storage (applyEvents s before) := applyEvents_storage hs.storage before
  have hs2 : Storage (retire (operated (applyEvents s before) i)) := operated_storage hs1 i
  obtain ⟨hclean, hread⟩ := operated_clean_or_flush hs1 hi
  have hsame : blockOf (applyEvents s before) i =
      blockOf (applyEvents (retire (operated (applyEvents s before) i)) between) (.cboInval q) := by
    rw [blockOf_applyEvents _ hbetween, blockOf_retire_operated, blockOf_applyEvents _ hbefore,
      blockOf_applyEvents _ hbefore]
    rcases hi with rfl | rfl <;> exact hblock
  have hstill := noModifiedCopy_applyEvents (s := retire (operated (applyEvents s before) i)) hclean hbetween
  rw [hsame] at hstill
  rw [readByte_retire, readByte_operated_inval (applyEvents_storage hs2 between) hstill,
    readByte_applyEvents_spontaneous hs2 hbetween, readByte_retire, hread,
    readByte_applyEvents_spontaneous hs.storage hbefore]

/-- Settles O42: the zeros stand in the cache only, so the invalidate exposes the memory that `CBO.ZERO` did not write. -/
theorem zeroThenInvalidateExposesOldMemory : Obligations.ZeroThenInvalidateExposesOldMemory := by
  intro s t u r a hs he ht he' hu hi ha
  rw [inBlock_blockOf_iff] at ha
  obtain ⟨-, -, rfl⟩ := retired_of_exec he ht
  obtain ⟨-, -, rfl⟩ := retired_of_exec he' hu
  have hsame : blockOf (retire (operated s (.cboZero r))) (.cboInval r) = blockBase s.cfg a := by
    rw [ha]
    exact blockOf_retire_operated s _ _
  refine ⟨?_, ?_⟩
  · have hzero := readByte_blockZero hs.storage (operandBlock_aligned s (effectiveAddress s r)) a
    exact hzero.trans (if_pos ha)
  · rw [readByte_retire, operated_inval, hi, if_pos rfl, hsame]
    have hmem : (retire (operated s (.cboZero r))).mem = s.mem := blockZero_mem s _
    rw [← hmem]
    exact readByte_absent (by simp)

/-! ## Stores and partial write backs -/

/-- Bytes written as a front and a rest read as the whole. -/
theorem getD_take_drop (vs : List Byte) (room pa a : Nat) (x : Byte) :
    (if pa + room ≤ a ∧ a < pa + room + (vs.drop room).length then (vs.drop room).getD (a - (pa + room)) 0#8
      else if pa ≤ a ∧ a < pa + (vs.take room).length then (vs.take room).getD (a - pa) 0#8 else x) =
      if pa ≤ a ∧ a < pa + vs.length then vs.getD (a - pa) 0#8 else x := by
  simp only [List.length_drop, List.length_take, List.getD_eq_getElem?_getD, List.getElem?_drop]
  by_cases hrest : pa + room ≤ a ∧ a < pa + room + (vs.length - room)
  · rw [if_pos hrest, if_pos (by omega), show room + (a - (pa + room)) = a - pa by omega]
  · rw [if_neg hrest]
    by_cases hfront : pa ≤ a ∧ a < pa + min room vs.length
    · rw [if_pos hfront, if_pos (by omega), List.getElem?_take_of_lt (by omega)]
    · rw [if_neg hfront, if_neg (by omega)]

/-- After the parts of a store each stored byte reads back and every other byte reads as before. -/
theorem readByte_memWriteParts {n : Nat} {s : State} (hs : Storage s) {pa : Nat} {vs : List Byte} (hn : vs.length ≤ n)
    (a : Nat) : readByte (memWriteParts n s pa vs) a =
      if pa ≤ a ∧ a < pa + vs.length then vs.getD (a - pa) 0#8 else readByte s a := by
  induction n generalizing s pa vs with
  | zero =>
    obtain rfl : vs = [] := List.eq_nil_of_length_eq_zero (by omega)
    rw [if_neg (by simp only [List.length_nil]; omega)]
    rfl
  | succ n ih =>
    cases vs with
    | nil =>
      rw [if_neg (by simp only [List.length_nil]; omega)]
      rfl
    | cons v vs =>
      have h1 := blockBase_le s.cfg pa
      have h2 := lt_blockBase_add s.cfg pa
      simp only [List.length_cons] at hn
      have hfit : pa - blockBase s.cfg pa +
          ((v :: vs).take (blockBase s.cfg pa + blockSize s.cfg - pa)).length ≤ blockSize s.cfg := by
        rw [List.length_take]
        omega
      have hrest : ((v :: vs).drop (blockBase s.cfg pa + blockSize s.cfg - pa)).length ≤ n := by
        rw [List.length_drop, List.length_cons]
        omega
      have ht := memWriteBlock_storage hs (blockBase_aligned s.cfg pa) hfit
      have hread := readByte_memWriteBlock hs (blockBase_aligned s.cfg pa) hfit a
      rw [Nat.add_sub_cancel' h1] at hread
      exact (ih ht hrest).trans ((congrArg _ hread).trans (getD_take_drop _ _ pa a _))

/-- Settles O41: the store's bound on the number of parts is its length, and every part has at least one byte. -/
theorem storeReadsBackAcrossBlocks : Obligations.StoreReadsBackAcrossBlocks :=
  fun _ _ _ a hs => readByte_memWriteParts hs.storage le_rfl a

/-- A write of chosen offsets writes exactly these. -/
theorem read_writeOffsets_inside {m : Memory} (hm : m.wf) (b : Nat) (d : List Byte) (os : List Nat) {o : Nat}
    (ho : o < d.length) : (writeOffsets m b d os).read (b + o) = if o ∈ os then d[o] else m.read (b + o) := by
  induction os generalizing m with
  | nil => rfl
  | cons x os ih =>
    simp only [writeOffsets]
    split
    · rename_i v hv
      rw [ih (write_wf hm _ _)]
      by_cases hx : o = x
      · subst hx
        have hvo : v = d[o] := by simpa [ho] using hv.symm
        simp [read_write_same hm, hvo]
      · simp [hx, read_write_other m v (show b + o ≠ b + x by omega)]
    · rename_i hv
      have hx : o ≠ x := fun h => by simp [← h, ho] at hv
      simp [ih hm, hx]

/-- Settles O44: the block has a modified copy, of which the chosen bytes are written to memory alone. -/
theorem partialWriteBackGivesPerByteDraws : Obligations.PartialWriteBackGivesPerByteDraws := by
  intro s d a os hs hmodel hf
  obtain ⟨-, hlen, -⟩ := lineOk_of_find hs.storage.2 hf
  have hpart : applyEvent s (.writeBackPart a os) = { s with mem := writeOffsets s.mem (blockBase s.cfg a) d os } := by
    simp [applyEvent, cacheWriteBackPart, hmodel, hf]
  refine ⟨readByte_cacheWriteBackPart hs.storage _ os, fun o ho => ?_, cacheWriteBackPart_cache s _ os⟩
  have hod : o < d.length := hlen ▸ ho
  have hbase : blockBase s.cfg (blockBase s.cfg a + o) = blockBase s.cfg a :=
    blockBase_of_mem (blockBase_aligned s.cfg a) (by omega) (by omega)
  have hread : readByte s (blockBase s.cfg a + o) = d[o] := by
    rw [readByte_present (l := ⟨d, true⟩) (by rw [hbase, hf]), hbase, Nat.add_sub_cancel_left,
      List.getD_eq_getElem _ _ hod]
  rw [hpart, hread]
  exact read_writeOffsets_inside hs.storage.1 _ d os hod

end Sys2Proof.Machine
end
